-- ==== Sys2Proof/Word.lean ====
section
/-! DEFINITION. Bytes, sixteen-bit fields, the mode bit, and words offered at the block's ports. -/

namespace Sys2Proof

/-- The addressable unit of every byte space (20_memory.md R31): the source's `u8`, unsigned. -/
abbrev Byte := BitVec 8

/-- A raw PM2.5 or PM10 field, an unsigned 16-bit value (00_scope.md R6, FIELD_BITS). -/
abbrev Half := BitVec 16

/-- The mode bit of a command: `0` sleep, `1` wake (10_state.md R13 TX_MODE, 30_encoding.md R61). -/
inductive Mode where
  | sleep
  | wake
  deriving DecidableEq, Repr

/-- Where an operation's word stands: one of the block's ports (10_state.md R25), the wire carrying a
whole frame (30_encoding.md R54 to R56), or the operand wires of a codec function (30_encoding.md R66).
Words of several rows of the table are equal bit for bit (a one-bit word is RESET, CMD.REQ or BUILD),
so the place is part of an encoding: DESIGN CHOICE, log 8. -/
inductive Channel where
  | rst
  | rx
  | res
  | cmd
  | tx
  | frameIn
  | frameOut
  | checksum
  | u16le
  | cmdbyte
  | build
  | parse
  | tenths
  deriving DecidableEq, Repr

/-- A word held out at a channel, as bytes: a port word fills as many bytes as its bits need, the byte
with its bits 7..0 first; a frame or a window is its bytes in wire order, offset 0 first (20_memory.md R37). -/
structure Offer where
  channel : Channel
  bytes : List Byte
  deriving DecidableEq, Repr

end Sys2Proof
end

