-- ==== Sys2Proof/Config.lean ====
section
/-! DEFINITION. What is fixed for this hardware: the record of wire constants. The structural parameters of 00_scope.md R6
("not arguments of the model") are the literals 10 (RSP_LEN), 19 (CMD_LEN), 8 and 16 in the types, and SCALE = 10
in TENTHS. -/

namespace Sys2Proof

/-- The wire constants of 00_scope.md R5, gathered in one record as R5 and 92_eei_decisions.md D28 ask.
The literals are unaudited (70_reset_and_hazards.md R134); their values are `Sys2Proof.Machine.wire`. -/
structure WireConstants where
  /-- HEAD, first byte of every frame, both directions. -/
  head : Byte
  /-- TAIL, last byte of every frame, both directions. -/
  tail : Byte
  /-- CMD_ID, command id of an outbound command frame. -/
  cmdId : Byte
  /-- RSP_ID, command id of an inbound response frame, "data reporting". -/
  rspId : Byte
  /-- SUBCMD_MODE, command data byte 1, "subcommand: set working mode". -/
  subcmdMode : Byte
  /-- APPLY, command data byte 2, "apply setting". -/
  apply : Byte
  /-- MODE_SLEEP, command data byte 3 for sleep. -/
  modeSleep : Byte
  /-- MODE_WAKE, command data byte 3 for wake. -/
  modeWake : Byte
  /-- DEVID_BCAST, the first byte of the command device id. -/
  devid1 : Byte
  /-- DEVID_BCAST, the second byte of the command device id. -/
  devid2 : Byte
  /-- RESERVED, value of each of command bytes 5 to 14. -/
  reserved : Byte
  deriving DecidableEq, Repr

end Sys2Proof
end

