-- ==== Sys2Proof/Machine/Wire.lean ====
section
/-! DEFINITION. The values of the wire constants, in the one place where an audit would correct them. -/

namespace Sys2Proof.Machine

/-- The literals of 00_scope.md R5, the defaults of the open parameter `WireConstants` of
92_eei_decisions.md D28. DESIGN CHOICE (unsafe where a literal is wrong): log 7. -/
def wire : WireConstants where
  head := 0xAA
  tail := 0xAB
  cmdId := 0xB4
  rspId := 0xC0
  subcmdMode := 0x06
  apply := 0x01
  modeSleep := 0x00
  modeWake := 0x01
  devid1 := 0xFF
  devid2 := 0xFF
  reserved := 0x00

end Sys2Proof.Machine
end

