-- ==== Sys2Proof/Machine/Codec.lean ====
section
/-! DEFINITION. The frame codec of 40_codec.md: pure functions, with no state and no failure (R74). -/

namespace Sys2Proof

/-- The mode as the one-bit word of the CMD port (30_encoding.md R61). -/
def Mode.bit : Mode → BitVec 1
  | .sleep => 0
  | .wake => 1

/-- The mode that a one-bit word stands for (30_encoding.md R61). -/
def Mode.ofBit (b : BitVec 1) : Mode := if b = 1 then .wake else .sleep

namespace Machine

/-- CHECKSUM (40_codec.md R67): the exact sum of the bytes, reduced modulo 256. -/
def checksum (s : List Byte) : Byte := BitVec.ofNat 8 (s.map BitVec.toNat).sum

/-- U16LE (40_codec.md R68, 30_encoding.md R51): `{hi, lo}`, the byte at the lower offset low. -/
def u16le (lo hi : Byte) : Half := hi ++ lo

/-- The byte at command offset 4 (30_encoding.md R50; `zext_8(mode_bit)` in R51). -/
def modeByte (k : WireConstants) : Mode → Byte
  | .sleep => k.modeSleep
  | .wake => k.modeWake

/-- The payload of a command frame, offsets 2 to 16 (30_encoding.md R50, R52). -/
def cmdPayload (k : WireConstants) (m : Mode) : List Byte :=
  [k.subcmdMode, k.apply, modeByte k m] ++ List.replicate 10 k.reserved ++ [k.devid1, k.devid2]

/-- CMDBYTE (40_codec.md R70): the byte at offset `i` of the command frame for mode `m`. Offset 17 is
the CHECKSUM of offsets 2 to 16, computed and not copied (92_eei_decisions.md D15, 90_conflicts.md C1). -/
def cmdByte (k : WireConstants) (m : Mode) (i : Fin 19) : Byte :=
  if i.val = 0 then k.head
  else if i.val = 1 then k.cmdId
  else if i.val = 2 then k.subcmdMode
  else if i.val = 3 then k.apply
  else if i.val = 4 then modeByte k m
  else if i.val ≤ 14 then k.reserved
  else if i.val = 15 then k.devid1
  else if i.val = 16 then k.devid2
  else if i.val = 17 then checksum (cmdPayload k m)
  else k.tail

/-- BUILD (40_codec.md R71): the nineteen bytes CMDBYTE gives, in offset order. -/
def build (k : WireConstants) (m : Mode) : Vector Byte 19 := Vector.ofFn (cmdByte k m)

/-- The ten bytes of a response frame with the given data bytes and checksum byte (30_encoding.md R49). -/
def responseFrame (k : WireConstants) (pm25lo pm25hi pm10lo pm10hi id1 id2 sum : Byte) : Vector Byte 10 :=
  #v[k.head, k.rspId, pm25lo, pm25hi, pm10lo, pm10hi, id1, id2, sum, k.tail]

/-- The payload of a response window, offsets 2 to 7 (30_encoding.md R52). -/
def rspPayload (f : Vector Byte 10) : List Byte := [f[2], f[3], f[4], f[5], f[6], f[7]]

/-- The four outcomes of PARSE (40_codec.md R72). -/
inductive ParseResult where
  | unexpectedCommandId
  | checksumMismatch
  | badTail
  | reading (pm25 pm10 : Half)
  deriving DecidableEq, Repr

/-- The three tests of 30_encoding.md R62 in their order, the first that fails naming the result
(42_stream_reader.md R87; 92_eei_decisions.md D8). -/
def classify (k : WireConstants) (f : Vector Byte 10) : ParseResult :=
  if f[1] ≠ k.rspId then .unexpectedCommandId
  else if f[8] ≠ checksum (rspPayload f) then .checksumMismatch
  else if f[9] ≠ k.tail then .badTail
  else .reading (u16le f[2] f[3]) (u16le f[4] f[5])

/-- PARSE (40_codec.md R72), given on windows whose first byte is HEAD and on no other
(92_eei_decisions.md D19). -/
def parse (k : WireConstants) (f : Vector Byte 10) : Option ParseResult :=
  if f[0] = k.head then some (classify k f) else none

/-- A valid response frame (30_encoding.md R54): the four conditions on a ten-byte window. -/
def validFrame (k : WireConstants) (f : Vector Byte 10) : Bool :=
  f[0] == k.head && f[1] == k.rspId && f[8] == checksum (rspPayload f) && f[9] == k.tail

/-- The exact value `r / 10`, written q.d (40_codec.md R73): no floating point (92_eei_decisions.md D14). -/
structure Tenths where
  whole : Nat
  digit : Fin 10
  deriving DecidableEq, Repr

/-- The rational number a TENTHS result stands for. -/
def Tenths.toRat (t : Tenths) : Rat := (t.whole : Rat) + (t.digit.val : Rat) / 10

/-- TENTHS (40_codec.md R73): `r = 10 * q + d` with `d` in 0..9 gives q.d. -/
def tenths (r : Half) : Tenths where
  whole := r.toNat / 10
  digit := Fin.ofNat 10 r.toNat

end Machine

end Sys2Proof
end

