-- ==== Sys2Proof/Syntax.lean ====
section
/-! DEFINITION. The operations of spec/opcode_table.json, one constructor per row. -/

namespace Sys2Proof

/-- The complete list of operations (30_encoding.md R58): three wire frames, seven port events and six
codec functions. -/
inductive Instr where
  /-- RSP.DATA (30_encoding.md R54): the data bytes and the checksum byte of a response frame. -/
  | rspData (pm25lo pm25hi pm10lo pm10hi id1 id2 sum : Byte)
  /-- CMD.SLEEP (30_encoding.md R55, 41_command_framer.md R80). -/
  | cmdSleep
  /-- CMD.WAKE (30_encoding.md R56, 41_command_framer.md R79). -/
  | cmdWake
  /-- RESET (70_reset_and_hazards.md R120). -/
  | reset
  /-- RX.BYTE b (42_stream_reader.md R84 to R92). -/
  | rxByte (b : Byte)
  /-- RX.EOF (42_stream_reader.md R93). -/
  | rxEof
  /-- RX.FAIL (42_stream_reader.md R94). -/
  | rxFail
  /-- RES.TAKE (42_stream_reader.md R95). -/
  | resTake
  /-- CMD.REQ m (41_command_framer.md R76). -/
  | cmdReq (m : Mode)
  /-- TX.TAKE (41_command_framer.md R77). -/
  | txTake
  /-- CHECKSUM (40_codec.md R67) of a sequence of any length. -/
  | checksum (s : List Byte)
  /-- U16LE (40_codec.md R68). -/
  | u16le (lo hi : Byte)
  /-- CMDBYTE (40_codec.md R70): the ROM address `{m, i[4:0]}`. -/
  | cmdbyte (m : Mode) (i : BitVec 5)
  /-- BUILD (40_codec.md R71). -/
  | build (m : Mode)
  /-- PARSE (40_codec.md R72). -/
  | parse (f : Vector Byte 10)
  /-- TENTHS (40_codec.md R73). -/
  | tenths (r : Half)
  deriving DecidableEq, Repr

end Sys2Proof
end

