-- ==== Sys2Proof/WellFormed.lean ====
section
/-! DEFINITION. The operand conditions of the operations. -/

namespace Sys2Proof

/-- The side condition of each operation. RSP.DATA: its checksum byte is the sum of its payload
(30_encoding.md R54, "the side condition that the table cannot express"). CMDBYTE: the offset is 0..18
(40_codec.md R70). PARSE: the window begins with HEAD (40_codec.md R72). The rest have none. -/
def WellFormed : Instr → Bool
  | .rspData pm25lo pm25hi pm10lo pm10hi id1 id2 sum =>
    sum == Machine.checksum [pm25lo, pm25hi, pm10lo, pm10hi, id1, id2]
  | .cmdSleep => true
  | .cmdWake => true
  | .reset => true
  | .rxByte _ => true
  | .rxEof => true
  | .rxFail => true
  | .resTake => true
  | .cmdReq _ => true
  | .txTake => true
  | .checksum _ => true
  | .u16le _ _ => true
  | .cmdbyte _ i => decide (i.toNat < 19)
  | .build _ => true
  | .parse f => f[0] == Machine.wire.head
  | .tenths _ => true

end Sys2Proof
end

