-- ==== Sys2Proof/Decode.lean ====
section
/-! DEFINITION. From the words at the ports to operations and back (30_encoding.md R54 to R61, R66). -/

namespace Sys2Proof

/-- Why a word is no operation of its channel. -/
inductive DecodeError where
  /-- The word has not as many bytes as its channel's words have. -/
  | wrongLength
  /-- A bit above the port's word is set: the port has no such wire. -/
  | strayBits
  /-- `rst` is 0: no event (70_reset_and_hazards.md R120 encodes RESET as `rst` = 1). -/
  | resetLow
  /-- The inbound frame does not begin with HEAD, RSP_ID, or does not end with TAIL (30_encoding.md R54). -/
  | notResponseFrame
  /-- The inbound frame's checksum byte is not the sum of its payload (30_encoding.md R54). -/
  | frameChecksum
  /-- The outbound frame is neither of the two the block can send (30_encoding.md R55, R56, R57). -/
  | notCommandFrame
  /-- A ROM offset above 18 (40_codec.md R70, "outside the domain"). -/
  | offsetOutsideDomain
  /-- A window that does not begin with HEAD (40_codec.md R72, outside PARSE's domain). -/
  | windowWithoutHead
  deriving DecidableEq, Repr

/-- The number that bytes stand for, the first byte least significant. -/
def leNat : List Byte → Nat
  | [] => 0
  | b :: bs => b.toNat + 256 * leNat bs

/-- The `n` bytes of a number, the least significant first. -/
def leBytes : Nat → Nat → List Byte
  | 0, _ => []
  | n + 1, v => BitVec.ofNat 8 v :: leBytes n (v / 256)

/-- How many bytes a word of `n` bits fills. -/
def bytesFor (n : Nat) : Nat := (n + 7) / 8

/-- The `n`-bit word of a port from its bytes. -/
def portWord (n : Nat) (bytes : List Byte) : Except DecodeError (BitVec n) :=
  if bytes.length ≠ bytesFor n then .error .wrongLength
  else if 2 ^ n ≤ leNat bytes then .error .strayBits
  else .ok (BitVec.ofNat n (leNat bytes))

/-- The RX event of a 10-bit word `{rx_kind[1:0], rx_data[7:0]}` (30_encoding.md R59): every word is
one; kind 3 is read as FAIL, and `rx_data` is ignored unless the kind is 0. -/
def rxEvent (w : BitVec 10) : Instr :=
  match w.extractLsb' 8 2 with
  | 0 => .rxByte (w.extractLsb' 0 8)
  | 1 => .rxEof
  | _ => .rxFail

/-- The operation of an inbound frame of ten bytes (30_encoding.md R54). -/
def decodeFrameIn (bytes : List Byte) : Except DecodeError Instr :=
  match bytes with
  | [h, c, pm25lo, pm25hi, pm10lo, pm10hi, id1, id2, sum, t] =>
    if h ≠ Machine.wire.head || c ≠ Machine.wire.rspId || t ≠ Machine.wire.tail then .error .notResponseFrame
    else if WellFormed (.rspData pm25lo pm25hi pm10lo pm10hi id1 id2 sum) then
      .ok (.rspData pm25lo pm25hi pm10lo pm10hi id1 id2 sum)
    else .error .frameChecksum
  | _ => .error .wrongLength

/-- The operation of an outbound frame of nineteen bytes (30_encoding.md R55, R56). -/
def decodeFrameOut (bytes : List Byte) : Except DecodeError Instr :=
  if bytes.length ≠ 19 then .error .wrongLength
  else if bytes = (Machine.build Machine.wire .sleep).toList then .ok .cmdSleep
  else if bytes = (Machine.build Machine.wire .wake).toList then .ok .cmdWake
  else .error .notCommandFrame

/-- The operation of a window of ten bytes given to PARSE (40_codec.md R72). -/
def decodeWindow (bytes : List Byte) : Except DecodeError Instr :=
  if h : bytes.length = 10 then
    let f : Vector Byte 10 := ⟨bytes.toArray, by simp [h]⟩
    if WellFormed (.parse f) then .ok (.parse f) else .error .windowWithoutHead
  else .error .wrongLength

/-- The operation of a 6-bit ROM address `{m, i[4:0]}` (spec/opcode_table.json, row CMDBYTE). -/
def decodeRomAddress (w : BitVec 6) : Except DecodeError Instr :=
  let i := w.extractLsb' 0 5
  if i.toNat < 19 then .ok (.cmdbyte (Mode.ofBit (w.extractLsb' 5 1)) i) else .error .offsetOutsideDomain

/-- The operation a word stands for, by the channel it stands on. The words of RES.TAKE and TX.TAKE go
from the block outwards (30_encoding.md R66), so what the block puts there is no operand: any word of the
port's width is the take (log 9). -/
def decode (o : Offer) : Except DecodeError Instr :=
  match o.channel with
  | .rst => (portWord 1 o.bytes).bind fun w => if w = 1 then .ok .reset else .error .resetLow
  | .rx => (portWord 10 o.bytes).map rxEvent
  | .res => (portWord 35 o.bytes).map fun _ => .resTake
  | .cmd => (portWord 1 o.bytes).map fun w => .cmdReq (Mode.ofBit w)
  | .tx => (portWord 9 o.bytes).map fun _ => .txTake
  | .frameIn => decodeFrameIn o.bytes
  | .frameOut => decodeFrameOut o.bytes
  | .checksum => .ok (.checksum o.bytes)
  | .u16le => (portWord 16 o.bytes).map fun w => .u16le (w.extractLsb' 0 8) (w.extractLsb' 8 8)
  | .cmdbyte => (portWord 6 o.bytes).bind decodeRomAddress
  | .build => (portWord 1 o.bytes).map fun w => .build (Mode.ofBit w)
  | .parse => decodeWindow o.bytes
  | .tenths => (portWord 16 o.bytes).map .tenths

/-- A port word as an offer at its channel. -/
def wordOffer {n : Nat} (c : Channel) (w : BitVec n) : Offer := ⟨c, leBytes (bytesFor n) w.toNat⟩

/-- The word of a well-formed operation (30_encoding.md R54 to R61, R66). Bits the block ignores are
written 0, as 95_test_vectors.md writes them. -/
def encode : Instr → Offer
  | .rspData pm25lo pm25hi pm10lo pm10hi id1 id2 sum =>
    ⟨.frameIn, (Machine.responseFrame Machine.wire pm25lo pm25hi pm10lo pm10hi id1 id2 sum).toList⟩
  | .cmdSleep => ⟨.frameOut, (Machine.build Machine.wire .sleep).toList⟩
  | .cmdWake => ⟨.frameOut, (Machine.build Machine.wire .wake).toList⟩
  | .reset => wordOffer .rst (1 : BitVec 1)
  | .rxByte b => wordOffer .rx ((0 : BitVec 2) ++ b)
  | .rxEof => wordOffer .rx (0x100 : BitVec 10)
  | .rxFail => wordOffer .rx (0x200 : BitVec 10)
  | .resTake => wordOffer .res (0 : BitVec 35)
  | .cmdReq m => wordOffer .cmd m.bit
  | .txTake => wordOffer .tx (0 : BitVec 9)
  | .checksum s => ⟨.checksum, s⟩
  | .u16le lo hi => wordOffer .u16le (hi ++ lo)
  | .cmdbyte m i => wordOffer .cmdbyte (m.bit ++ i)
  | .build m => wordOffer .build m.bit
  | .parse f => ⟨.parse, f.toList⟩
  | .tenths r => wordOffer .tenths r

/-- The places a word of `n` bytes of spec/opcode_table.json may stand, in the order they are tried: the
table numbers the bits of a word and does not say at which port it stands (log 8). -/
def tableChannels : Nat → List Channel
  | 1 => [.rst, .cmd, .cmdbyte, .checksum]
  | 2 => [.rx, .u16le]
  | 5 => [.res]
  | 10 => [.frameIn, .parse]
  | 19 => [.frameOut]
  | _ => []

/-- The offers a table word may be: at each place in turn, first with the bytes as numbered (bits 7..0
the first byte), and for a frame or window also in the order of the table's own `match` (offset 0 the most
significant byte). -/
def tableOffers (nbits w : Nat) : List Offer :=
  let bytes := leBytes (bytesFor nbits) w
  let chans := tableChannels (bytesFor nbits)
  chans.map (⟨·, bytes⟩) ++ (if 10 ≤ bytesFor nbits then chans.map (⟨·, bytes.reverse⟩) else [])

/-- Whether a word decodes. -/
def decodes (o : Offer) : Bool :=
  match decode o with
  | .ok _ => true
  | .error _ => false

/-- The offer that a table word stands for: the first of `tableOffers` that decodes, and where none does the first of
all (on the RST port if there is none), which the decoder rejects by name. -/
def tableOffer (nbits w : Nat) : Offer :=
  ((tableOffers nbits w).find? decodes).getD
    ((tableOffers nbits w).headD ⟨.rst, leBytes (bytesFor nbits) w⟩)

/-- The operation the decoder reads from a table word (log 8). -/
def decodeTableWord (nbits w : Nat) : Option Instr :=
  match decode (tableOffer nbits w) with
  | .ok i => some i
  | .error _ => none

end Sys2Proof
end

