-- ==== Sys2Proof/Machine/State.lean ====
section
/-! DEFINITION. The ten elements of the block (10_state.md R13), the trace and offers around it, the reasons
a step has no next state, and the state after reset. -/

namespace Sys2Proof.Machine

/-- RSTATE (10_state.md R14). Code 3 never occurs, so the type has three values (log 16). -/
inductive RState where
  | seek
  | frame
  | closed
  deriving DecidableEq, Repr

/-- RES_KIND (10_state.md R18). Code 7 is never produced, so the type has seven values (log 16). -/
inductive ResKind where
  | none
  | reading
  | checksumMismatch
  | unexpectedCommandId
  | badTail
  | ioFailure
  | eof
  deriving DecidableEq, Repr

/-- The reader's seven elements (10_state.md R13). -/
structure Reader where
  /-- RSTATE: the resting state. -/
  rstate : RState
  /-- CNT, 0 to 9: how many bytes of the current candidate BUF holds. -/
  cnt : Fin 10
  /-- BUF[0..9]: the candidate window, ten 8-bit registers. -/
  buf : Vector Byte 10
  /-- RES_VALID: a result is posted and not yet taken. -/
  resValid : Bool
  /-- RES_KIND: the kind of the posted result. -/
  resKind : ResKind
  /-- RES_PM25: raw PM2.5 field of a READING result, else 0. -/
  resPm25 : Half
  /-- RES_PM10: raw PM10 field of a READING result, else 0. -/
  resPm10 : Half
  deriving DecidableEq, Repr

/-- The framer's three elements (10_state.md R13). -/
structure Framer where
  /-- TX_BUSY: a command frame is being emitted. -/
  txBusy : Bool
  /-- TX_MODE: the mode bit of the frame being emitted. -/
  txMode : Mode
  /-- TX_IDX, 0 to 18: offset of the next byte to emit. -/
  txIdx : Fin 19
  deriving DecidableEq, Repr

/-- The whole state of the block: the ten elements of 10_state.md R13 and nothing else; the two agents'
elements are disjoint. -/
structure Block where
  reader : Reader
  framer : Framer
  deriving DecidableEq, Repr

/-- What a caller receives by RES.TAKE: the three result elements (42_stream_reader.md R95). -/
structure Result where
  kind : ResKind
  pm25 : Half
  pm10 : Half
  deriving DecidableEq, Repr

/-- What the transport receives by TX.TAKE: `{tx_last, tx_data}` (30_encoding.md R61). -/
structure TxWord where
  last : Bool
  data : Byte
  deriving DecidableEq, Repr

/-- One event of a trace (00_scope.md R11), with what was handed over at it, as in the annotated trace
syntax of 30_encoding.md R64 (`take -> READING(40, 60)`, `tx -> AA`). -/
inductive TraceItem where
  | reset
  | rxByte (b : Byte)
  | rxEof
  | rxFail
  | take (r : Result)
  | cmdReq (m : Mode)
  | tx (w : TxWord)
  deriving DecidableEq, Repr

/-- The result of a codec function. -/
inductive CodecValue where
  /-- CHECKSUM and CMDBYTE. -/
  | byte (v : Byte)
  /-- U16LE. -/
  | half (v : Half)
  /-- BUILD. -/
  | frame (v : Vector Byte 19)
  /-- PARSE. -/
  | parsed (v : ParseResult)
  /-- TENTHS. -/
  | tenths (v : Tenths)
  deriving DecidableEq, Repr

/-- The machine: the block, and around it what has happened and what is held out to it. Only `block` is
state of the hardware (10_state.md R13, R19, R27). -/
structure State where
  block : Block
  /-- The trace so far, oldest first (00_scope.md R11, R12): the model's own field, log 3. -/
  trace : List TraceItem
  /-- What the outside agents hold out at the ports, oldest first (00_scope.md R11, "the offering side must
  hold its data and wait"): the model's own field, log 1. -/
  offers : List Offer
  /-- The result wires of the codec functions (40_codec.md R74): the model's own field, log 4. -/
  codec : Option CodecValue
  deriving DecidableEq, Repr

/-- Why the machine stops with a fault: nothing. The block has no traps and no byte pattern makes it fault or
halt (30_encoding.md R62, 60_exceptions.md opening); the five error kinds are results, posted by next states. -/
inductive Fault where
  deriving DecidableEq, Repr

/-- Why there is no next state. -/
inductive Refusal where
  /-- Raised by an arm of exec whose operation has no meaning yet; none is left. Safe. -/
  | notModelled (mnemonic : String)
  /-- Raised by an event whose port is closed (10_state.md R26): it does not occur and has no step
  (00_scope.md R11; 93_implementation_defined.md U5). Safe: log 5. -/
  | notEnabled
  /-- Raised by an event of an agent whose elements break the invariants of 10_state.md R17 or R21; such a
  state is unreachable and no rule gives it a meaning (93_implementation_defined.md U8). Safe: log 6. -/
  | unreachableState
  /-- Raised by PARSE on a window without HEAD and by CMDBYTE beyond offset 18, both outside the functions'
  domain (93_implementation_defined.md U12, U13). Safe: log 14. -/
  | outsideDomain
  /-- Raised by step on what is no word of its channel: more or fewer bits than the port has signals (10_state.md R25), an
  outbound frame that the block "offers no way to send" (30_encoding.md R57), a PARSE window or a ROM offset outside the
  domain (93_implementation_defined.md U12, U13: refuse). By 00_scope.md R11 what is no event has no step. Safe: log 8. -/
  | undecodable (e : DecodeError)
  /-- Raised by step when nothing is held out at any port: waiting is no step (42_stream_reader.md R99).
  Safe: log 17. -/
  | nothingOffered
  deriving DecidableEq, Repr

/-- The reader after RESET (10_state.md R28). -/
def Reader.reset : Reader where
  rstate := .seek
  cnt := 0
  buf := Vector.replicate 10 0
  resValid := false
  resKind := .none
  resPm25 := 0
  resPm10 := 0

/-- The framer after RESET (10_state.md R28). -/
def Framer.reset : Framer where
  txBusy := false
  txMode := .sleep
  txIdx := 0

/-- The block after RESET (10_state.md R28, 70_reset_and_hazards.md R120). -/
def Block.reset : Block := ⟨Reader.reset, Framer.reset⟩

/-- The machine right after reset: the block as 10_state.md R28 says, nothing observed and nothing held out
yet (log 3, log 4, log 13). A model has no state before RESET (70_reset_and_hazards.md R125). -/
def State.reset : State where
  block := Block.reset
  trace := []
  offers := []
  codec := none

end Sys2Proof.Machine
end

