-- ==== Sys2Proof/Machine/Operands.lean ====
section
/-! DEFINITION. How operands are read and formed: the frame buffer, the candidate window, the re-scan, and the
words at the RES and TX ports. -/

namespace Sys2Proof.Machine

/-- `MemRead(BUF, a, 1)` (20_memory.md R34). -/
def memRead1 (buf : Vector Byte 10) (a : Fin 10) : Byte := buf[a]

/-- `MemRead(BUF, a, 2)`, little-endian (20_memory.md R34, R36): `{BUF[a+1], BUF[a]}`. -/
def memRead2 (buf : Vector Byte 10) (a : Fin 9) : Half :=
  memRead1 buf ⟨a.val + 1, by omega⟩ ++ memRead1 buf ⟨a.val, by omega⟩

/-- `MemWrite(BUF, a, 1, v)` (20_memory.md R34). -/
def memWrite1 (buf : Vector Byte 10) (a : Fin 10) (v : Byte) : Vector Byte 10 := buf.set a.val v a.isLt

/-- The buffer with every register 0x00. -/
def emptyBuf : Vector Byte 10 := Vector.replicate 10 0

/-- The window of the tenth-byte step (42_stream_reader.md R86): `w[i] = BUF[i]` for i in 0..8 and `w[9] = b`. -/
def window (buf : Vector Byte 10) (b : Byte) : Vector Byte 10 := memWrite1 buf 9 b

/-- The re-scan's search (42_stream_reader.md R88, R89 a): the first k in 1..9 with `w[k] = HEAD`. -/
def rescan (k : WireConstants) (w : Vector Byte 10) : Option (Fin 10) :=
  ([1, 2, 3, 4, 5, 6, 7, 8, 9] : List (Fin 10)).find? fun i => w[i] = k.head

/-- The window moved down by `k` and zero-filled (42_stream_reader.md R88): `BUF[i] <- w[i+k]` for i in
0..9-k, `0x00` above. -/
def shiftDown (w : Vector Byte 10) (k : Nat) : Vector Byte 10 :=
  Vector.ofFn fun i => if h : i.val + k < 10 then w[i.val + k] else 0

/-- Bytes held out at the RX port as the RX words of their RX.BYTE events, the first byte first (30_encoding.md R59, and R65,
transport `read(n)`). -/
def rxWords (bytes : List Byte) : List Offer := bytes.map fun b => encode (.rxByte b)

/-- The three-bit code of a result kind (30_encoding.md R60, 10_state.md R18). -/
def ResKind.code : ResKind → BitVec 3
  | .none => 0
  | .reading => 1
  | .checksumMismatch => 2
  | .unexpectedCommandId => 3
  | .badTail => 4
  | .ioFailure => 5
  | .eof => 6

/-- The two-bit code of RSTATE (10_state.md R13). -/
def RState.code : RState → BitVec 2
  | .seek => 0
  | .frame => 1
  | .closed => 2

/-- The 35-bit RES word `{res_kind, res_pm25, res_pm10}` (30_encoding.md R60). -/
def Result.word (r : Result) : BitVec 35 := (r.kind.code ++ r.pm25) ++ r.pm10

/-- The 9-bit TX word `{tx_last, tx_data}` (30_encoding.md R61). -/
def TxWord.word (w : TxWord) : BitVec 9 := BitVec.ofBool w.last ++ w.data

end Sys2Proof.Machine
end

