-- ==== Sys2Proof/Machine/Flags.lean ====
section
/-! DEFINITION. The block's outputs as functions of its state, and the enabling condition of every event
(10_state.md R23, R26). The block has no arithmetic flags. -/

namespace Sys2Proof.Machine

/-- `rx_ready` (10_state.md R26). -/
def Reader.rxReady (r : Reader) : Bool := r.rstate != .closed && !r.resValid

/-- The result elements as they stand: what `res_kind`, `res_pm25` and `res_pm10` show (10_state.md R26). -/
def Reader.result (r : Reader) : Result := ⟨r.resKind, r.resPm25, r.resPm10⟩

/-- `cmd_ready` (10_state.md R26). -/
def Framer.cmdReady (f : Framer) : Bool := !f.txBusy

/-- `tx_data` (10_state.md R26, 41_command_framer.md R78): `MemRead(ROM, TX_MODE, TX_IDX)` while busy, 0x00 on
an idle port. -/
def Framer.txData (k : WireConstants) (f : Framer) : Byte := if f.txBusy then cmdByte k f.txMode f.txIdx else 0

/-- `tx_last` (10_state.md R26). -/
def Framer.txLast (f : Framer) : Bool := f.txBusy && f.txIdx.val == 18

/-- `{tx_last, tx_data}` as they stand. -/
def Framer.txWord (k : WireConstants) (f : Framer) : TxWord := ⟨f.txLast, f.txData k⟩

/-- The enabling condition of each operation on the block's state (10_state.md R26). RSP.DATA is offered on
the RX port; CMD.SLEEP and CMD.WAKE begin with CMD.REQ (30_encoding.md R65); the functions have none. -/
def enabled (i : Instr) (b : Block) : Bool :=
  match i with
  | .rspData _ _ _ _ _ _ _ => b.reader.rxReady
  | .cmdSleep => b.framer.cmdReady
  | .cmdWake => b.framer.cmdReady
  | .reset => true
  | .rxByte _ => b.reader.rxReady
  | .rxEof => b.reader.rxReady
  | .rxFail => b.reader.rxReady
  | .resTake => b.reader.resValid
  | .cmdReq _ => b.framer.cmdReady
  | .txTake => b.framer.txBusy
  | .checksum _ => true
  | .u16le _ _ => true
  | .cmdbyte _ _ => true
  | .build _ => true
  | .parse _ => true
  | .tenths _ => true

end Sys2Proof.Machine
end

