-- ==== Sys2Proof/Machine/Ops.lean ====
section
/-! DEFINITION. The shared operations: posting a result, the reader's and the framer's steps, the invariants,
and running an event of either agent. -/

namespace Sys2Proof.Machine

/-! ### The invariants -/

/-- I2 (10_state.md R17): SEEK implies CNT = 0. -/
abbrev Reader.I2 (r : Reader) : Prop := r.rstate = .seek → r.cnt = 0

/-- I3 (10_state.md R17): FRAME implies 1 <= CNT <= 9 and BUF[0] = HEAD. -/
abbrev Reader.I3 (k : WireConstants) (r : Reader) : Prop :=
  r.rstate = .frame → 1 ≤ r.cnt.val ∧ memRead1 r.buf 0 = k.head

/-- I4 (10_state.md R17): CLOSED implies CNT = 0, RES_VALID = 1 and RES_KIND is 5 or 6. -/
abbrev Reader.I4 (r : Reader) : Prop :=
  r.rstate = .closed → r.cnt = 0 ∧ r.resValid = true ∧ (r.resKind = .ioFailure ∨ r.resKind = .eof)

/-- I5 (10_state.md R17): BUF[i] = 0x00 for every i >= CNT. -/
abbrev Reader.I5 (r : Reader) : Prop := ∀ i : Fin 10, r.cnt ≤ i → memRead1 r.buf i = 0

/-- I6 (10_state.md R17): no result, then kind and fields are 0. -/
abbrev Reader.I6 (r : Reader) : Prop := r.resValid = false → r.resKind = .none ∧ r.resPm25 = 0 ∧ r.resPm10 = 0

/-- I7 (10_state.md R17): a posted result has a kind; only a READING has fields; a terminal kind means CLOSED. -/
abbrev Reader.I7 (r : Reader) : Prop :=
  (r.resValid = true → r.resKind ≠ .none) ∧
  (r.resKind ≠ .reading → r.resPm25 = 0 ∧ r.resPm10 = 0) ∧
  (r.resKind = .ioFailure ∨ r.resKind = .eof → r.rstate = .closed)

/-- `ReaderWF` (10_state.md R17). I1 holds by the type of RSTATE. -/
def Reader.wf (k : WireConstants) (r : Reader) : Bool :=
  decide (r.I2 ∧ r.I3 k ∧ r.I4 ∧ r.I5 ∧ r.I6 ∧ r.I7)

/-- `FramerWF` (10_state.md R21), I9: idle, then TX_MODE = 0 and TX_IDX = 0. I8 holds by the type of TX_IDX. -/
def Framer.wf (f : Framer) : Bool := decide (f.txBusy = false → f.txMode = .sleep ∧ f.txIdx = 0)

/-! ### The reader's steps -/

/-- Post a result: `RES_VALID <- 1` and the three result elements (00_scope.md R10). -/
def Reader.post (r : Reader) (kind : ResKind) (pm25 pm10 : Half) : Reader :=
  { r with resValid := true, resKind := kind, resPm25 := pm25, resPm10 := pm10 }

/-- `raise <Kind>()` (60_exceptions.md R101): post the kind with both fields 0. Every error result is taken
through this one operation. -/
def Reader.raise (r : Reader) (kind : ResKind) : Reader := r.post kind 0 0

/-- `BUF[i] <- 0x00 for i in 0..9 ; CNT <- 0 ; RSTATE <- st`. -/
def Reader.clear (r : Reader) (st : RState) : Reader := { r with buf := emptyBuf, cnt := 0, rstate := st }

/-- `RES_VALID <- 0 ; RES_KIND <- 0 ; RES_PM25 <- 0 ; RES_PM10 <- 0` (42_stream_reader.md R95). -/
def Reader.unpost (r : Reader) : Reader := { r with resValid := false, resKind := .none, resPm25 := 0, resPm10 := 0 }

/-- Store a byte of the candidate (42_stream_reader.md R84, R85): `BUF[i] <- b`, CNT and RSTATE as given. -/
def Reader.store (r : Reader) (i : Fin 10) (b : Byte) (cnt : Fin 10) : Reader :=
  { r with buf := memWrite1 r.buf i b, cnt := cnt, rstate := .frame }

/-- Keep the window from a re-scan hit at `k` on as a new candidate (42_stream_reader.md R88, R89):
`CNT <- 10 - k`, `RSTATE <- FRAME`. -/
def Reader.keepFrom (r : Reader) (w : Vector Byte 10) (k : Fin 10) : Reader :=
  { r with buf := shiftDown w k.val, cnt := Fin.ofNat 10 (10 - k.val), rstate := .frame }

/-- The re-scan's effect on the candidate (42_stream_reader.md R88): a hit keeps the rest of the window, a
miss leaves SEEK with an empty buffer. -/
def Reader.resync (k : WireConstants) (r : Reader) (w : Vector Byte 10) : Reader :=
  match rescan k w with
  | none => r.clear .seek
  | some i => r.keepFrom w i

/-- The tenth byte (42_stream_reader.md R86): the outcome of PARSE on the completed window, with the
consequence of R88, R90, R91 or R92. -/
def Reader.complete (k : WireConstants) (b : Byte) (r : Reader) : Reader :=
  let w := window r.buf b
  match classify k w with
  | .unexpectedCommandId => (r.resync k w).raise .unexpectedCommandId
  | .checksumMismatch => (r.clear .seek).raise .checksumMismatch
  | .badTail => (r.clear .seek).raise .badTail
  | .reading pm25 pm10 => (r.clear .seek).post .reading pm25 pm10

/-- An event of the RX port: a byte or one of the two terminators of the stream (20_memory.md R32). -/
inductive RxEvent where
  | byte (b : Byte)
  | eof
  | fail
  deriving DecidableEq, Repr

/-- RX.BYTE by state: R84 in SEEK, R85 in FRAME with CNT <= 8, R86 in FRAME with CNT = 9
(42_stream_reader.md). In CLOSED no RX event is enabled (R83), and nothing changes. -/
def Reader.rxByte (k : WireConstants) (b : Byte) (r : Reader) : Reader :=
  match r.rstate with
  | .seek => if b = k.head then r.store 0 b 1 else r
  | .frame => if h : r.cnt.val ≤ 8 then r.store r.cnt b ⟨r.cnt.val + 1, by omega⟩ else r.complete k b
  | .closed => r

/-- The reader's step on an RX event: R84 to R92 for a byte, R93 for EOF, R94 for FAIL (42_stream_reader.md). -/
def Reader.accept (k : WireConstants) (e : RxEvent) (r : Reader) : Reader :=
  match e with
  | .byte b => r.rxByte k b
  | .eof => (r.clear .closed).raise .eof
  | .fail => (r.clear .closed).raise .ioFailure

/-- RES.TAKE (42_stream_reader.md R95): outside CLOSED the result is cleared; in CLOSED it stays posted. -/
def Reader.takeResult (r : Reader) : Reader := if r.rstate = .closed then r else r.unpost

/-- Bytes delivered to the RX port in order for as long as it is open: the reader after those accepted, and
the bytes the transport still holds (42_stream_reader.md R83). -/
def Reader.deliver (k : WireConstants) : List Byte → Reader → Reader × List Byte
  | [], r => (r, [])
  | b :: bs, r => if r.rxReady then Reader.deliver k bs (r.rxByte k b) else (r, b :: bs)

/-! ### The framer's steps -/

/-- CMD.REQ(m) (41_command_framer.md R76). -/
def Framer.request (m : Mode) (f : Framer) : Framer := { f with txBusy := true, txMode := m, txIdx := 0 }

/-- TX.TAKE (41_command_framer.md R77). -/
def Framer.takeByte (f : Framer) : Framer :=
  if h : f.txIdx.val < 18 then { f with txIdx := ⟨f.txIdx.val + 1, by omega⟩ }
  else { f with txBusy := false, txMode := .sleep, txIdx := 0 }

/-- `n` TX.TAKE in a row (`tx*N`, 30_encoding.md R64): the framer after them and the words taken. -/
def Framer.takeBytes (k : WireConstants) : Nat → Framer → Framer × List TxWord
  | 0, f => (f, [])
  | n + 1, f =>
    let rest := Framer.takeBytes k n f.takeByte
    (rest.1, f.txWord k :: rest.2)

/-! ### Running an event on the machine -/

/-- The machine with another reader. -/
def State.withReader (s : State) (r : Reader) : State := { s with block := { s.block with reader := r } }

/-- The machine with another framer. -/
def State.withFramer (s : State) (f : Framer) : State := { s with block := { s.block with framer := f } }

/-- The machine with further events on its trace. -/
def State.record (s : State) (items : List TraceItem) : State := { s with trace := s.trace ++ items }

/-- The machine with other offers held out. -/
def State.withOffers (s : State) (os : List Offer) : State := { s with offers := os }

/-- The machine with a codec result on the codec's wires (40_codec.md R74): the block does not change. -/
def State.withCodec (s : State) (v : CodecValue) : State := { s with codec := some v }

/-- An event of the reader: it happens where its port is open (10_state.md R26) and the reader's elements
keep the invariants (93_implementation_defined.md U8, log 6); it changes the reader alone (10_state.md R13). -/
def readerEvent (open? : Bool) (f : Reader → Reader) (item : TraceItem) (s : State) :
    Host.Outcome State Fault Refusal :=
  if open? then
    if s.block.reader.wf wire then .next ((s.withReader (f s.block.reader)).record [item])
    else .refused .unreachableState
  else .refused .notEnabled

/-- An event of the framer, as `readerEvent` (10_state.md R21, R26); it changes the framer alone. -/
def framerEvent (open? : Bool) (f : Framer → Framer) (items : List TraceItem) (s : State) :
    Host.Outcome State Fault Refusal :=
  if open? then
    if s.block.framer.wf then .next ((s.withFramer (f s.block.framer)).record items)
    else .refused .unreachableState
  else .refused .notEnabled

/-- An event of the RX port (42_stream_reader.md R83). -/
def rxPortEvent (e : RxEvent) (item : TraceItem) (s : State) : Host.Outcome State Fault Refusal :=
  readerEvent s.block.reader.rxReady (Reader.accept wire e) item s

/-- A whole command frame (30_encoding.md R65): CMD.REQ(m) and nineteen TX.TAKE. -/
def wholeFrame (m : Mode) (s : State) : Host.Outcome State Fault Refusal :=
  let run := Framer.takeBytes wire 19 (s.block.framer.request m)
  framerEvent s.block.framer.cmdReady (fun _ => run.1) (.cmdReq m :: run.2.map .tx) s

/-- A codec function with its value; no value outside its domain (93_implementation_defined.md U12, U13). -/
def codecFunction (v : Option CodecValue) (s : State) : Host.Outcome State Fault Refusal :=
  match v with
  | some v => .next (s.withCodec v)
  | none => .refused .outsideDomain

end Sys2Proof.Machine
end

