-- ==== Sys2Proof/Machine/FramerEvents.lean ====
section
/-! DEFINITION. The events of the command framer (41_command_framer.md) and its two frames. -/

namespace Sys2Proof.Machine

/-- CMD.REQ(m) (41_command_framer.md R76). -/
def execCmdReq (m : Mode) (s : State) : Host.Outcome State Fault Refusal :=
  framerEvent s.block.framer.cmdReady (Framer.request m) [.cmdReq m] s

/-- TX.TAKE (41_command_framer.md R77): the byte and the mark handed over are as they stand before the event. -/
def execTxTake (s : State) : Host.Outcome State Fault Refusal :=
  framerEvent s.block.framer.txBusy Framer.takeByte [.tx (s.block.framer.txWord wire)] s

/-- CMD.SLEEP, the source's `sleep_frame()` (41_command_framer.md R80). -/
def execCmdSleep (s : State) : Host.Outcome State Fault Refusal := wholeFrame .sleep s

/-- CMD.WAKE, the source's `wake_frame()` (41_command_framer.md R79). -/
def execCmdWake (s : State) : Host.Outcome State Fault Refusal := wholeFrame .wake s

end Sys2Proof.Machine
end

