-- ==== Sys2Proof/Machine/Functions.lean ====
section
/-! DEFINITION. The six codec functions as operations (40_codec.md): each puts its value on the codec's wires
and changes no element of the block (R74; log 4). -/

namespace Sys2Proof.Machine

/-- CHECKSUM (40_codec.md R67). -/
def execChecksum (bytes : List Byte) (s : State) : Host.Outcome State Fault Refusal :=
  codecFunction (some (.byte (checksum bytes))) s

/-- U16LE (40_codec.md R68). -/
def execU16le (lo hi : Byte) (s : State) : Host.Outcome State Fault Refusal :=
  codecFunction (some (.half (u16le lo hi))) s

/-- CMDBYTE (40_codec.md R70): offsets 19 to 31 are outside the domain (93_implementation_defined.md U13). -/
def execCmdbyte (m : Mode) (i : BitVec 5) (s : State) : Host.Outcome State Fault Refusal :=
  codecFunction (if h : i.toNat < 19 then some (.byte (cmdByte wire m ⟨i.toNat, h⟩)) else none) s

/-- BUILD (40_codec.md R71). -/
def execBuild (m : Mode) (s : State) : Host.Outcome State Fault Refusal :=
  codecFunction (some (.frame (build wire m))) s

/-- PARSE (40_codec.md R72): a window without HEAD is outside the domain (93_implementation_defined.md U12). -/
def execParse (f : Vector Byte 10) (s : State) : Host.Outcome State Fault Refusal :=
  codecFunction ((parse wire f).map .parsed) s

/-- TENTHS (40_codec.md R73). -/
def execTenths (r : Half) (s : State) : Host.Outcome State Fault Refusal :=
  codecFunction (some (.tenths (tenths r))) s

end Sys2Proof.Machine
end

