-- ==== Sys2Proof/Machine/ReaderEvents.lean ====
section
/-! DEFINITION. The events of the frame synchronizer (42_stream_reader.md) and its frame, RSP.DATA. -/

namespace Sys2Proof.Machine

/-- RX.BYTE(b) (42_stream_reader.md R84 to R92). -/
def execRxByte (b : Byte) (s : State) : Host.Outcome State Fault Refusal :=
  rxPortEvent (.byte b) (.rxByte b) s

/-- RX.EOF (42_stream_reader.md R93). -/
def execRxEof (s : State) : Host.Outcome State Fault Refusal := rxPortEvent .eof .rxEof s

/-- RX.FAIL (42_stream_reader.md R94). -/
def execRxFail (s : State) : Host.Outcome State Fault Refusal := rxPortEvent .fail .rxFail s

/-- RES.TAKE (42_stream_reader.md R95): the caller receives the result elements as they stand before the
event. -/
def execResTake (s : State) : Host.Outcome State Fault Refusal :=
  readerEvent s.block.reader.resValid Reader.takeResult (.take s.block.reader.result) s

/-- RSP.DATA (30_encoding.md R54, 42_stream_reader.md R92): the transport delivers the ten bytes of the frame
on the RX port, in order. Where a result is posted before the tenth (a candidate was already being collected),
the bytes not accepted stay held out by the transport, ahead of its later offers (R83; log 10). -/
def execRspData (pm25lo pm25hi pm10lo pm10hi id1 id2 sum : Byte) (s : State) : Host.Outcome State Fault Refusal :=
  let bytes := (responseFrame wire pm25lo pm25hi pm10lo pm10hi id1 id2 sum).toList
  let got := Reader.deliver wire bytes s.block.reader
  if s.block.reader.rxReady then
    if s.block.reader.wf wire then
      .next (((s.withReader got.1).record ((bytes.take (bytes.length - got.2.length)).map .rxByte)).withOffers
        (rxWords got.2 ++ s.offers))
    else .refused .unreachableState
  else .refused .notEnabled

end Sys2Proof.Machine
end

