-- ==== Sys2Proof/Machine/ResetEvent.lean ====
section
/-! DEFINITION. RESET (70_reset_and_hazards.md R120). -/

namespace Sys2Proof.Machine

/-- RESET (R120): every element of the block gets its reset value, in any state whatever. The trace so far
stays (R123 c: "the bytes already taken stay in TXS"), and what is held out outside the block stays held out
(R124: "RESET does not reach into the transport"). -/
def execReset (s : State) : Host.Outcome State Fault Refusal :=
  .next ({ s with block := Block.reset }.record [.reset])

end Sys2Proof.Machine
end

