-- ==== Sys2Proof/Machine/Dispatch.lean ====
section
/-! DEFINITION. One arm per operation, each a call of its meaning. -/

namespace Sys2Proof.Machine

/-- The meaning of an operation (30_encoding.md R58). -/
def exec (i : Instr) (s : State) : Host.Outcome State Fault Refusal :=
  match i with
  | .rspData a b c d e f g => Sys2Proof.Machine.execRspData a b c d e f g s
  | .cmdSleep => Sys2Proof.Machine.execCmdSleep s
  | .cmdWake => Sys2Proof.Machine.execCmdWake s
  | .reset => Sys2Proof.Machine.execReset s
  | .rxByte b => Sys2Proof.Machine.execRxByte b s
  | .rxEof => Sys2Proof.Machine.execRxEof s
  | .rxFail => Sys2Proof.Machine.execRxFail s
  | .resTake => Sys2Proof.Machine.execResTake s
  | .cmdReq m => Sys2Proof.Machine.execCmdReq m s
  | .txTake => Sys2Proof.Machine.execTxTake s
  | .checksum bytes => Sys2Proof.Machine.execChecksum bytes s
  | .u16le lo hi => Sys2Proof.Machine.execU16le lo hi s
  | .cmdbyte m n => Sys2Proof.Machine.execCmdbyte m n s
  | .build m => Sys2Proof.Machine.execBuild m s
  | .parse f => Sys2Proof.Machine.execParse f s
  | .tenths r => Sys2Proof.Machine.execTenths r s

end Sys2Proof.Machine
end

