-- ==== Sys2Proof/Machine/Fetch.lean ====
section
/-! DEFINITION. What a word held out at a port asks of the block, and which of the words held out is dealt with next. -/

namespace Sys2Proof.Machine

/-- What a word held out asks of the block. -/
inductive Ask where
  /-- An event, with the words that the same agent holds out behind it. -/
  | event (i : Instr) (more : List Offer)
  /-- No event: the word stands there and nothing happens. -/
  | noEvent
  /-- It is no word of its channel. -/
  | noWord (e : DecodeError)
  deriving DecidableEq, Repr

/-- What bytes on the inbound wire ask where they are no response frame: RX.BYTE of the first, the rest held out behind it
(30_encoding.md R65, transport `read(n)`; R62: every inbound encoding has an outcome). No byte is no event. Log 18. -/
def askBytes : List Byte → Ask
  | [] => .noEvent
  | b :: bs => .event (.rxByte b) (rxWords bs)

/-- What a word held out asks: the operation it decodes to; where it is no operation, inbound bytes ask for their RX.BYTE
events, `rst` = 0 for no event (10_state.md R26), and the rest is no word of the block's ports (log 18). -/
def ask (o : Offer) : Ask :=
  match decode o with
  | .ok i => .event i []
  | .error e =>
    if o.channel = .frameIn then askBytes o.bytes
    else if e = .resetLow then .noEvent
    else .noWord e

/-- Whether an offer can be dealt with now: its event is enabled, or it asks for none. -/
def ready (b : Block) (o : Offer) : Bool :=
  match ask o with
  | .event i _ => enabled i b
  | .noEvent => true
  | .noWord _ => true

/-- The first offer that can be dealt with, and the offers left, in their order. An offer whose port is closed
is held by its agent and stays (00_scope.md R11, 42_stream_reader.md R83); offers of one port share one enabling
condition, so none that asks for an event overtakes another of its port. A word that is no word of its channel is dealt
with at once, by being rejected, whatever is held before it (log 1). -/
def pick (b : Block) : List Offer → Option (Offer × List Offer)
  | [] => none
  | o :: os => if ready b o then some (o, os) else (pick b os).map fun p => (p.1, o :: p.2)

/-- The offer the next step deals with: the first that can be; if none can, the first of all, whose event is
then refused as not enabled; none if nothing is held out. -/
def nextOffer (b : Block) (os : List Offer) : Option (Offer × List Offer) :=
  match pick b os with
  | some p => some p
  | none =>
    match os with
    | [] => none
    | o :: rest => some (o, rest)

end Sys2Proof.Machine
end

