-- ==== Sys2Proof/Machine/Step.lean ====
section
/-! DEFINITION. One step: the next event among those held out at the ports. -/

namespace Sys2Proof.Machine

/-- One event (00_scope.md R11, 10_state.md R26: "a model may take events one at a time"). With nothing held out
there is no step (42_stream_reader.md R99). A word that asks for no event goes by and the block does not change (log 18). -/
def step (s : State) : Host.Outcome State Fault Refusal :=
  match nextOffer s.block s.offers with
  | none => .refused .nothingOffered
  | some (o, rest) =>
    match ask o with
    | .event i more => exec i (s.withOffers (more ++ rest))
    | .noEvent => .next (s.withOffers rest)
    | .noWord e => .refused (.undecodable e)

/-- The state in which the given table word is all that is held out, so that the next step deals with it. It
stands for the outside agents' offering it (log 13). -/
def State.withFetchWord (s : State) (nbits w : Nat) : State := s.withOffers [tableOffer nbits w]

end Sys2Proof.Machine
end

