-- ==== Sys2Proof/Machine/Run.lean ====
section
/-! DEFINITION. Traces: running events in order, what a trace says of the streams, and the one block that a
well-formed trace leads to. -/

namespace Sys2Proof.Machine

/-- The step function extended to traces (00_scope.md R11): each event in turn, stopping at the first that has
no step (95_test_vectors.md Part 4). -/
def runEvents : List Instr → State → Host.Outcome State Fault Refusal
  | [], s => .next s
  | i :: is, s =>
    match exec i s with
    | .next t => runEvents is t
    | .fault r => .fault r
    | .refused r => .refused r

/-- The event of an RX word. -/
def RxEvent.instr : RxEvent → Instr
  | .byte b => .rxByte b
  | .eof => .rxEof
  | .fail => .rxFail

/-- An RX event as it stands on a trace. -/
def RxEvent.item : RxEvent → TraceItem
  | .byte b => .rxByte b
  | .eof => .rxEof
  | .fail => .rxFail

/-! ### What a trace says (00_scope.md R12, 20_memory.md R30) -/

/-- The part of a trace after its latest RESET, from where positions are counted (70_reset_and_hazards.md R121). -/
def sinceReset (items : List TraceItem) : List TraceItem :=
  items.foldl (fun acc e => if e = .reset then [] else acc ++ [e]) []

/-- RXS: the bytes accepted, in order (20_memory.md R32). -/
def rxs (items : List TraceItem) : List Byte :=
  items.filterMap fun e => match e with
    | .rxByte b => some b
    | _ => none

/-- TXS: the words taken, in order (20_memory.md R33). -/
def txs (items : List TraceItem) : List TxWord :=
  items.filterMap fun e => match e with
    | .tx w => some w
    | _ => none

/-- The modes requested, in order. -/
def requests (items : List TraceItem) : List Mode :=
  items.filterMap fun e => match e with
    | .cmdReq m => some m
    | _ => none

/-- The results taken, each with the number of RX events accepted since RESET before it (00_scope.md R12). -/
def taken : Nat → List TraceItem → List (Result × Nat)
  | _, [] => []
  | _, .reset :: es => taken 0 es
  | n, .rxByte _ :: es => taken (n + 1) es
  | n, .rxEof :: es => taken (n + 1) es
  | n, .rxFail :: es => taken (n + 1) es
  | n, .take r :: es => (r, n) :: taken n es
  | n, .cmdReq _ :: es => taken n es
  | n, .tx _ :: es => taken n es

/-- The nineteen words of one command frame on the TX port: BUILD(m), the mark on the last alone
(30_encoding.md R61, 41_command_framer.md R79, R80). -/
def frameWords (k : WireConstants) (m : Mode) : List TxWord :=
  (List.finRange 19).map fun i => ⟨i.val == 18, cmdByte k m i⟩

/-- The words of the frame in emission that are still to be taken. -/
def Framer.remaining (k : WireConstants) (f : Framer) : List TxWord :=
  if f.txBusy then (frameWords k f.txMode).drop f.txIdx.val else []

/-! ### Replaying a trace -/

/-- The block after one event of a trace, where the event is enabled (10_state.md R26) and hands over what the
block presents (30_encoding.md R64). -/
def TraceItem.apply (k : WireConstants) (b : Block) : TraceItem → Option Block
  | .reset => some Block.reset
  | .rxByte x => if b.reader.rxReady then some { b with reader := b.reader.accept k (.byte x) } else none
  | .rxEof => if b.reader.rxReady then some { b with reader := b.reader.accept k .eof } else none
  | .rxFail => if b.reader.rxReady then some { b with reader := b.reader.accept k .fail } else none
  | .take r => if b.reader.resValid = true ∧ r = b.reader.result then
      some { b with reader := b.reader.takeResult } else none
  | .cmdReq m => if b.framer.cmdReady then some { b with framer := b.framer.request m } else none
  | .tx w => if b.framer.txBusy = true ∧ w = b.framer.txWord k then
      some { b with framer := b.framer.takeByte } else none

/-- The block a well-formed annotated trace leads to from reset; none for an ill-formed one (30_encoding.md R64). -/
def replay (k : WireConstants) (items : List TraceItem) : Option Block :=
  items.foldlM (TraceItem.apply k) Block.reset

end Sys2Proof.Machine
end

