-- ==== Sys2Proof/Machine/Clock.lean ====
section
/-! DEFINITION. One rising clock edge with all of the block's input pins (10_state.md R25, R26), at which a reader
event and a framer event may fall together. -/

namespace Sys2Proof.Machine

/-- The input signals of 10_state.md R25, as they stand at a rising edge of `clk`. -/
structure Pins where
  rst : Bool
  rxValid : Bool
  rxKind : BitVec 2
  rxData : Byte
  resReady : Bool
  cmdValid : Bool
  cmdMode : BitVec 1
  txReady : Bool
  deriving DecidableEq, Repr

/-- The reader events that occur at an edge without reset: each when its port's valid and ready are both 1
(10_state.md R26). The RX word says which RX event it is (30_encoding.md R59). -/
def readerEventsAt (p : Pins) (r : Reader) : List Instr :=
  (if p.rxValid && r.rxReady then [rxEvent (p.rxKind ++ p.rxData)] else []) ++
  (if r.resValid && p.resReady then [.resTake] else [])

/-- The framer events that occur at an edge without reset (10_state.md R26). -/
def framerEventsAt (p : Pins) (f : Framer) : List Instr :=
  (if p.cmdValid && f.cmdReady then [.cmdReq (Mode.ofBit p.cmdMode)] else []) ++
  (if f.txBusy && p.txReady then [.txTake] else [])

/-- The events of an edge: RESET overrides every other event of its cycle (10_state.md R26). -/
def eventsAt (p : Pins) (b : Block) : List Instr :=
  if p.rst then [.reset] else readerEventsAt p b.reader ++ framerEventsAt p b.framer

/-- A rising clock edge: the events that occur at it, the reader's before the framer's (either order gives the
same block: 10_state.md R26; log 2). -/
def clockEdge (p : Pins) (s : State) : Host.Outcome State Fault Refusal := runEvents (eventsAt p s.block) s

end Sys2Proof.Machine
end

