-- ==== Sys2Proof/Machine/ReadNext.lean ====
section
/-! DEFINITION. The source's `read_next()` (42_stream_reader.md R98): the caller's procedure on the reader. -/

namespace Sys2Proof.Machine

/-- `read_next()` (42_stream_reader.md R98, 30_encoding.md R65) against what the transport will deliver: accept RX
events until a result is posted, then take it. The result, the events not accepted, and the reader after the
take; none where the call would wait (R99). -/
def Reader.readNext (k : WireConstants) : List RxEvent → Reader → Option (Result × List RxEvent × Reader)
  | [], r => if r.resValid then some (r.result, [], r.takeResult) else none
  | e :: es, r =>
    if r.resValid then some (r.result, e :: es, r.takeResult)
    else if r.rxReady then Reader.readNext k es (r.accept k e)
    else none

/-- `n` calls of `read_next()` in a row: the results in order. -/
def Reader.readMany (k : WireConstants) : Nat → List RxEvent → Reader → Option (List Result × List RxEvent × Reader)
  | 0, es, r => some ([], es, r)
  | n + 1, es, r =>
    match r.readNext k es with
    | none => none
    | some (x, es', r') =>
      match Reader.readMany k n es' r' with
      | none => none
      | some (xs, es'', r'') => some (x :: xs, es'', r'')

/-- The source's `Reading` (00_scope.md glossary): both fields in µg/m³, with no timestamp (40_codec.md R73). -/
structure Reading where
  pm25 : Tenths
  pm10 : Tenths
  deriving DecidableEq, Repr

/-- The source's four-member `ReadError` (42_stream_reader.md R98). -/
inductive ReadError where
  | checksumMismatch
  | unexpectedCommandId
  | ioFailure
  | eof
  deriving DecidableEq, Repr

/-- What a caller bound to the source's contract makes of a result taken (42_stream_reader.md R98): BAD_TAIL is
read as `ChecksumMismatch` (R91); NONE is never taken. -/
def Result.returned (r : Result) : Option (Except ReadError Reading) :=
  match r.kind with
  | .none => none
  | .reading => some (.ok ⟨tenths r.pm25, tenths r.pm10⟩)
  | .checksumMismatch => some (.error .checksumMismatch)
  | .unexpectedCommandId => some (.error .unexpectedCommandId)
  | .badTail => some (.error .checksumMismatch)
  | .ioFailure => some (.error .ioFailure)
  | .eof => some (.error .eof)

/-- A byte sequence as the RX events that deliver it. -/
def byteEvents (bytes : List Byte) : List RxEvent := bytes.map .byte

end Sys2Proof.Machine
end

