-- ==== Sys2Proof/Safety.lean ====
section
/-! DEFINITION. The terms in which claims are made: what an event may change, which agent it is of, and the
invariants of the machine. -/

namespace Sys2Proof.Machine

/-- Between the two states nothing but the reader changed, and `items` happened. -/
def ChangesOnlyReader (s t : State) (items : List TraceItem) : Prop :=
  t.block.framer = s.block.framer ∧ t.offers = s.offers ∧ t.codec = s.codec ∧ t.trace = s.trace ++ items

/-- Between the two states nothing but the framer changed, and `items` happened. -/
def ChangesOnlyFramer (s t : State) (items : List TraceItem) : Prop :=
  t.block.reader = s.block.reader ∧ t.offers = s.offers ∧ t.codec = s.codec ∧ t.trace = s.trace ++ items

/-- Between the two states nothing but the codec's wires changed, and they hold `v`. -/
def ChangesOnlyCodec (s t : State) (v : CodecValue) : Prop :=
  t.block = s.block ∧ t.offers = s.offers ∧ t.trace = s.trace ∧ t.codec = some v

/-- The four result elements of a reader are those of another. -/
def SameResult (r q : Reader) : Prop :=
  q.resValid = r.resValid ∧ q.resKind = r.resKind ∧ q.resPm25 = r.resPm25 ∧ q.resPm10 = r.resPm10

/-- The reader posts exactly this result. -/
def Posts (q : Reader) (kind : ResKind) (pm25 pm10 : Half) : Prop :=
  q.resValid = true ∧ q.resKind = kind ∧ q.resPm25 = pm25 ∧ q.resPm10 = pm10

/-- The reader rests in `st` with no candidate and every register of BUF 0x00. -/
def EmptyIn (q : Reader) (st : RState) : Prop :=
  q.rstate = st ∧ q.cnt = 0 ∧ ∀ i : Fin 10, q.buf[i] = 0

/-- `w` is the ten-byte window that byte `b` completes (42_stream_reader.md R86). -/
def Completes (r : Reader) (b : Byte) (w : Vector Byte 10) : Prop :=
  ∀ i : Fin 10, w[i] = if i.val < 9 then r.buf[i] else b

/-- Events of the reader's ports, and its frame (00_scope.md R12). -/
def readerSide : Instr → Bool
  | .rspData _ _ _ _ _ _ _ => true
  | .rxByte _ => true
  | .rxEof => true
  | .rxFail => true
  | .resTake => true
  | .cmdSleep => false
  | .cmdWake => false
  | .reset => false
  | .cmdReq _ => false
  | .txTake => false
  | .checksum _ => false
  | .u16le _ _ => false
  | .cmdbyte _ _ => false
  | .build _ => false
  | .parse _ => false
  | .tenths _ => false

/-- Operations of the RX port: all stand behind `rx_ready`. -/
def rxSide (i : Instr) : Bool := readerSide i && i != .resTake

/-- Events of the framer's ports, and its frames (00_scope.md R12). -/
def framerSide : Instr → Bool
  | .cmdSleep => true
  | .cmdWake => true
  | .cmdReq _ => true
  | .txTake => true
  | .rspData _ _ _ _ _ _ _ => false
  | .rxByte _ => false
  | .rxEof => false
  | .rxFail => false
  | .resTake => false
  | .reset => false
  | .checksum _ => false
  | .u16le _ _ => false
  | .cmdbyte _ _ => false
  | .build _ => false
  | .parse _ => false
  | .tenths _ => false

/-- The codec functions (40_codec.md R74). -/
def codecSide (i : Instr) : Bool := !readerSide i && !framerSide i && i != .reset

/-- The word asks for an event, and the event's port is closed (00_scope.md R11: the offering side holds it and waits). -/
def Held (b : Block) (o : Offer) : Prop := ∃ j more, ask o = .event j more ∧ enabled j b = false

/-- The invariants of 10_state.md R17 and R21 on the whole block. -/
def Block.wf (b : Block) : Bool := b.reader.wf wire && b.framer.wf

/-- The trace is well formed and the block is where it leads (00_scope.md R11, 30_encoding.md R64). -/
def State.TraceLeadsHere (s : State) : Prop := replay wire s.trace = some s.block

/-- TXS since RESET, with what is left of the frame in emission, is the requested frames in order
(20_memory.md R33, R44 c). -/
def State.TxsIsFrames (s : State) : Prop :=
  txs (sinceReset s.trace) ++ s.block.framer.remaining wire =
    (requests (sinceReset s.trace)).flatMap (frameWords wire)

/-- The candidate in BUF is the end of RXS since RESET (20_memory.md R32). -/
def State.CandidateEndsRxs (s : State) : Prop :=
  s.block.reader.buf.toList.take s.block.reader.cnt.val <:+ rxs (sinceReset s.trace)

end Sys2Proof.Machine
end

