-- ==== Sys2Proof/Certificates/Slice0/Obligations.lean ====
section
/-! DEFINITION. The statements about the machine, from the rules of spec/. -/

open Sys2Proof Sys2Proof.Machine

/-! ### Reset -/

/-- 70_reset_and_hazards.md R120: RESET happens in every state, gives every element its reset value, and overrides every other
event of its clock edge. The trace, the offers and the codec wires are the model's own fields (log 3, log 1, log 4). -/
def Obligations.ResetGivesEveryElementItsValue : Prop :=
  ∀ s : State, ∃ t, exec .reset s = .next t ∧
    t.block.reader.rstate = .seek ∧ t.block.reader.cnt = 0 ∧ (∀ i : Fin 10, t.block.reader.buf[i] = 0) ∧
    t.block.reader.resValid = false ∧ t.block.reader.resKind = .none ∧
    t.block.reader.resPm25 = 0 ∧ t.block.reader.resPm10 = 0 ∧
    t.block.framer.txBusy = false ∧ t.block.framer.txMode = .sleep ∧ t.block.framer.txIdx = 0 ∧
    t.trace = s.trace ++ [.reset] ∧ t.offers = s.offers ∧ t.codec = s.codec ∧
    ∀ p : Pins, p.rst = true → clockEdge p s = .next t

/-- 10_state.md R28: the elements at reset, and the outputs they give. -/
def Obligations.ResetStateElementsAndOutputs : Prop :=
  let b := State.reset.block
  (b.reader.rstate = .seek ∧ b.reader.cnt = 0 ∧ (∀ i : Fin 10, b.reader.buf[i] = 0) ∧ b.reader.resValid = false ∧
    b.reader.resKind = .none ∧ b.reader.resPm25 = 0 ∧ b.reader.resPm10 = 0 ∧ b.framer.txBusy = false ∧
    b.framer.txMode = .sleep ∧ b.framer.txIdx = 0) ∧
  (b.reader.rxReady = true ∧ b.framer.cmdReady = true ∧ b.framer.txData wire = 0 ∧ b.framer.txLast = false)

/-- The invariants hold right after reset: those of 10_state.md R17 and R21, and the model's three of the trace (log 3). -/
def Obligations.ResetMeetsTheInvariants : Prop :=
  State.reset.block.wf = true ∧ State.reset.TraceLeadsHere ∧ State.reset.TxsIsFrames ∧ State.reset.CandidateEndsRxs

/-! ### Enabling -/

/-- 42_stream_reader.md R83: in a well-formed reader RX.BYTE, RX.EOF and RX.FAIL have a step exactly when RSTATE is not
CLOSED and RES_VALID = 0, RES.TAKE exactly when RES_VALID = 1; otherwise they are no events. -/
def Obligations.ReaderEventsHappenExactlyWhenEnabled : Prop :=
  ∀ (s : State), s.block.reader.wf wire = true →
    (∀ i : Instr, (i = .rxEof ∨ i = .rxFail ∨ ∃ b, i = .rxByte b) →
      ((∃ t, exec i s = .next t) ↔ (s.block.reader.rstate ≠ .closed ∧ s.block.reader.resValid = false)) ∧
      (¬ (s.block.reader.rstate ≠ .closed ∧ s.block.reader.resValid = false) → exec i s = .refused .notEnabled)) ∧
    ((∃ t, exec .resTake s = .next t) ↔ s.block.reader.resValid = true) ∧
    (s.block.reader.resValid = false → exec .resTake s = .refused .notEnabled)

/-- An event whose port is closed has no step, in any state: every operation of the table that stands at a port
(10_state.md R26; the refusal's form is log 5). -/
def Obligations.ClosedPortsRefuse : Prop :=
  ∀ (i : Instr) (s : State), enabled i s.block = false → exec i s = .refused .notEnabled

/-- Every operation completes: in a well-formed block, an operation whose operands are well formed and whose port is open has
a next state. The enabling conditions are those of 10_state.md R26, the domains of the six functions those of 40_codec.md R67 to
R73 (log 14). That a whole frame is one step is the model's form: RSP.DATA by log 10 (DESIGN CHOICE), CMD.SLEEP and CMD.WAKE by
log 11 (DEDUCED). -/
def Obligations.EnabledOperationsComplete : Prop :=
  ∀ (i : Instr) (s : State), s.block.wf = true → WellFormed i = true → enabled i s.block = true →
    ∃ t, exec i s = .next t

/-- In a state that breaks the reader's or the framer's invariants an event of that agent is refused by name, but RESET is
not (93_implementation_defined.md U8, 70_reset_and_hazards.md R125; the model's choice of form, log 6). -/
def Obligations.UnreachableStatesHaveNoSteps : Prop :=
  ∀ (i : Instr) (s : State), enabled i s.block = true →
    (readerSide i = true → s.block.reader.wf wire = false → exec i s = .refused .unreachableState) ∧
    (framerSide i = true → s.block.framer.wf = false → exec i s = .refused .unreachableState)

/-! ### RX.BYTE -/

/-- 42_stream_reader.md R84: a byte in SEEK. -/
def Obligations.ByteInSeek : Prop :=
  ∀ (s : State) (b : Byte), s.block.reader.wf wire = true → s.block.reader.rstate = .seek →
    s.block.reader.resValid = false →
    (b = 0xAA → ∃ t, exec (.rxByte b) s = .next t ∧ t.block.reader.rstate = .frame ∧ t.block.reader.cnt = 1 ∧
      (∀ i : Fin 10, t.block.reader.buf[i] = if i = 0 then b else s.block.reader.buf[i]) ∧
      SameResult s.block.reader t.block.reader ∧ ChangesOnlyReader s t [.rxByte b]) ∧
    (b ≠ 0xAA → ∃ t, exec (.rxByte b) s = .next t ∧ t.block.reader = s.block.reader ∧
      ChangesOnlyReader s t [.rxByte b])

/-- 42_stream_reader.md R85: a byte in FRAME with CNT <= 8 is stored, whatever its value. -/
def Obligations.ByteWhileCollecting : Prop :=
  ∀ (s : State) (b : Byte), s.block.reader.wf wire = true → s.block.reader.rstate = .frame →
    s.block.reader.resValid = false → s.block.reader.cnt.val ≤ 8 →
    ∃ t, exec (.rxByte b) s = .next t ∧ t.block.reader.rstate = .frame ∧
      t.block.reader.cnt.val = s.block.reader.cnt.val + 1 ∧
      (∀ i : Fin 10, t.block.reader.buf[i] = if i = s.block.reader.cnt then b else s.block.reader.buf[i]) ∧
      SameResult s.block.reader t.block.reader ∧ ChangesOnlyReader s t [.rxByte b]

/-- 42_stream_reader.md R92: a tenth byte that completes a valid frame posts the reading of its two fields. -/
def Obligations.TenthByteReading : Prop :=
  ∀ (s : State) (b : Byte) (w : Vector Byte 10), s.block.reader.wf wire = true → s.block.reader.rstate = .frame →
    s.block.reader.resValid = false → s.block.reader.cnt = 9 → Completes s.block.reader b w →
    w[1] = 0xC0 → w[8] = checksum [w[2], w[3], w[4], w[5], w[6], w[7]] → w[9] = 0xAB →
    ∃ t, exec (.rxByte b) s = .next t ∧ EmptyIn t.block.reader .seek ∧
      Posts t.block.reader .reading (w[3] ++ w[2]) (w[5] ++ w[4]) ∧ ChangesOnlyReader s t [.rxByte b]

/-- 42_stream_reader.md R90: right id, wrong checksum, whatever the tail. -/
def Obligations.TenthByteChecksumMismatch : Prop :=
  ∀ (s : State) (b : Byte) (w : Vector Byte 10), s.block.reader.wf wire = true → s.block.reader.rstate = .frame →
    s.block.reader.resValid = false → s.block.reader.cnt = 9 → Completes s.block.reader b w →
    w[1] = 0xC0 → w[8] ≠ checksum [w[2], w[3], w[4], w[5], w[6], w[7]] →
    ∃ t, exec (.rxByte b) s = .next t ∧ EmptyIn t.block.reader .seek ∧
      Posts t.block.reader .checksumMismatch 0 0 ∧ ChangesOnlyReader s t [.rxByte b]

/-- 42_stream_reader.md R91: right id and checksum, wrong tail. -/
def Obligations.TenthByteBadTail : Prop :=
  ∀ (s : State) (b : Byte) (w : Vector Byte 10), s.block.reader.wf wire = true → s.block.reader.rstate = .frame →
    s.block.reader.resValid = false → s.block.reader.cnt = 9 → Completes s.block.reader b w →
    w[1] = 0xC0 → w[8] = checksum [w[2], w[3], w[4], w[5], w[6], w[7]] → w[9] ≠ 0xAB →
    ∃ t, exec (.rxByte b) s = .next t ∧ EmptyIn t.block.reader .seek ∧
      Posts t.block.reader .badTail 0 0 ∧ ChangesOnlyReader s t [.rxByte b]

/-- 42_stream_reader.md R88: a wrong id is reported, and the window's offsets 1 to 9 are searched for a head: the first hit
keeps the window from there, a miss leaves SEEK empty. -/
def Obligations.TenthByteUnexpectedIdRescans : Prop :=
  ∀ (s : State) (b : Byte) (w : Vector Byte 10), s.block.reader.wf wire = true → s.block.reader.rstate = .frame →
    s.block.reader.resValid = false → s.block.reader.cnt = 9 → Completes s.block.reader b w → w[1] ≠ 0xC0 →
    ((∀ j : Fin 10, 1 ≤ j.val → w[j] ≠ 0xAA) →
      ∃ t, exec (.rxByte b) s = .next t ∧ EmptyIn t.block.reader .seek ∧
        Posts t.block.reader .unexpectedCommandId 0 0 ∧ ChangesOnlyReader s t [.rxByte b]) ∧
    (∀ k : Fin 10, 1 ≤ k.val → w[k] = 0xAA → (∀ j : Fin 10, 1 ≤ j.val → j < k → w[j] ≠ 0xAA) →
      ∃ t, exec (.rxByte b) s = .next t ∧ t.block.reader.rstate = .frame ∧ t.block.reader.cnt.val = 10 - k.val ∧
        (∀ i : Fin 10, t.block.reader.buf[i] = if h : i.val + k.val < 10 then w[i.val + k.val] else 0) ∧
        Posts t.block.reader .unexpectedCommandId 0 0 ∧ ChangesOnlyReader s t [.rxByte b])

/-- No head is skipped by the id check (42_stream_reader.md section 5, property P6): every 0xAA at or after offset 1 of a
window that fails it is still in BUF after the step, in its place behind the new first byte. -/
def Obligations.IdCheckSkipsNoHead : Prop :=
  ∀ (s : State) (b : Byte) (w : Vector Byte 10) (j : Fin 10), s.block.reader.wf wire = true →
    s.block.reader.rstate = .frame → s.block.reader.resValid = false → s.block.reader.cnt = 9 →
    Completes s.block.reader b w → w[1] ≠ 0xC0 → 1 ≤ j.val → w[j] = 0xAA →
    ∃ t, exec (.rxByte b) s = .next t ∧ t.block.reader.rstate = .frame ∧
      ∃ i : Fin 10, i < t.block.reader.cnt ∧ t.block.reader.buf[i] = 0xAA ∧
        t.block.reader.cnt.val + j.val = 10 + i.val

/-- The tenth byte posts the result that PARSE gives on the completed window, and always one (42_stream_reader.md section 2,
R86). -/
def Obligations.TenthBytePostsWhatParseSays : Prop :=
  ∀ (s : State) (b : Byte) (w : Vector Byte 10), s.block.reader.wf wire = true → s.block.reader.rstate = .frame →
    s.block.reader.resValid = false → s.block.reader.cnt = 9 → Completes s.block.reader b w →
    ∃ t p, exec (.rxByte b) s = .next t ∧ parse wire w = some p ∧
      match p with
      | .unexpectedCommandId => Posts t.block.reader .unexpectedCommandId 0 0
      | .checksumMismatch => Posts t.block.reader .checksumMismatch 0 0
      | .badTail => Posts t.block.reader .badTail 0 0
      | .reading pm25 pm10 => Posts t.block.reader .reading pm25 pm10

/-! ### RX.EOF, RX.FAIL, RES.TAKE -/

/-- 42_stream_reader.md R93. -/
def Obligations.EofClosesTheReader : Prop :=
  ∀ (s : State), s.block.reader.wf wire = true → s.block.reader.rstate ≠ .closed → s.block.reader.resValid = false →
    ∃ t, exec .rxEof s = .next t ∧ EmptyIn t.block.reader .closed ∧ Posts t.block.reader .eof 0 0 ∧
      ChangesOnlyReader s t [.rxEof]

/-- 42_stream_reader.md R94. -/
def Obligations.FailClosesTheReader : Prop :=
  ∀ (s : State), s.block.reader.wf wire = true → s.block.reader.rstate ≠ .closed → s.block.reader.resValid = false →
    ∃ t, exec .rxFail s = .next t ∧ EmptyIn t.block.reader .closed ∧ Posts t.block.reader .ioFailure 0 0 ∧
      ChangesOnlyReader s t [.rxFail]

/-- 42_stream_reader.md R95: RES.TAKE hands over the result elements; outside CLOSED it clears them and leaves the
candidate, in CLOSED it changes nothing. -/
def Obligations.TakeHandsOverTheResult : Prop :=
  ∀ (s : State), s.block.reader.wf wire = true → s.block.reader.resValid = true →
    ∃ t, exec .resTake s = .next t ∧
      ChangesOnlyReader s t
        [.take ⟨s.block.reader.resKind, s.block.reader.resPm25, s.block.reader.resPm10⟩] ∧
      (s.block.reader.rstate = .closed → t.block.reader = s.block.reader) ∧
      (s.block.reader.rstate ≠ .closed →
        t.block.reader.resValid = false ∧ t.block.reader.resKind = .none ∧ t.block.reader.resPm25 = 0 ∧
        t.block.reader.resPm10 = 0 ∧ t.block.reader.rstate = s.block.reader.rstate ∧
        t.block.reader.cnt = s.block.reader.cnt ∧ t.block.reader.buf = s.block.reader.buf)

/-! ### RSP.DATA -/

/-- A whole valid response frame offered to a reader that seeks is read (42_stream_reader.md R92, 30_encoding.md R54). That one
operation delivers all ten bytes in one step is the model's choice (log 10). -/
def Obligations.ResponseFrameFromSeekIsRead : Prop :=
  ∀ (s : State) (a A b B i j : Byte), s.block.reader.wf wire = true → s.block.reader.rstate = .seek →
    s.block.reader.resValid = false →
    ∃ t, exec (.rspData a A b B i j (checksum [a, A, b, B, i, j])) s = .next t ∧ EmptyIn t.block.reader .seek ∧
      Posts t.block.reader .reading (A ++ a) (B ++ b) ∧
      ChangesOnlyReader s t
        (([0xAA, 0xC0, a, A, b, B, i, j, checksum [a, A, b, B, i, j], 0xAB] : List Byte).map .rxByte)

/-- RSP.DATA is its ten bytes on the RX port (30_encoding.md R65, transport `read`): the bytes accepted have the effect of
their RX.BYTE events one by one, they stop only where a result closes the port, and the rest stays held out first (log 10). -/
def Obligations.ResponseFrameIsItsBytes : Prop :=
  ∀ (s : State) (a A b B i j c : Byte), s.block.reader.wf wire = true → s.block.reader.rstate ≠ .closed →
    s.block.reader.resValid = false →
    ∃ t u used rest, exec (.rspData a A b B i j c) s = .next t ∧
      used ++ rest = ([0xAA, 0xC0, a, A, b, B, i, j, c, 0xAB] : List Byte) ∧ used ≠ [] ∧
      runEvents (used.map .rxByte) s = .next u ∧ t.block = u.block ∧ t.trace = u.trace ∧ t.codec = u.codec ∧
      (rest = [] ∨ t.block.reader.resValid = true) ∧
      t.offers = rest.map (fun x => encode (.rxByte x)) ++ s.offers

/-! ### CMD.REQ, TX.TAKE, CMD.SLEEP, CMD.WAKE -/

/-- 41_command_framer.md R76: the request latches the mode and offers the head byte; offered to a busy framer it is no event. -/
def Obligations.RequestStartsAFrame : Prop :=
  ∀ (s : State) (m : Mode), s.block.framer.wf = true →
    (s.block.framer.txBusy = false → ∃ t, exec (.cmdReq m) s = .next t ∧ t.block.framer.txBusy = true ∧
      t.block.framer.txMode = m ∧ t.block.framer.txIdx = 0 ∧ t.block.framer.txData wire = 0xAA ∧
      ChangesOnlyFramer s t [.cmdReq m]) ∧
    (s.block.framer.txBusy = true → exec (.cmdReq m) s = .refused .notEnabled)

/-- 41_command_framer.md R77: the byte of the offset is handed over, with the mark at offset 18 alone; the offset advances,
and after offset 18 the framer is idle. -/
def Obligations.TakeHandsOverTheByte : Prop :=
  ∀ (s : State), s.block.framer.wf = true → s.block.framer.txBusy = true →
    ∃ t, exec .txTake s = .next t ∧
      ChangesOnlyFramer s t
        [.tx ⟨decide (s.block.framer.txIdx.val = 18), cmdByte wire s.block.framer.txMode s.block.framer.txIdx⟩] ∧
      (s.block.framer.txIdx.val < 18 → t.block.framer.txBusy = true ∧
        t.block.framer.txMode = s.block.framer.txMode ∧
        t.block.framer.txIdx.val = s.block.framer.txIdx.val + 1) ∧
      (s.block.framer.txIdx.val = 18 → t.block.framer.txBusy = false ∧ t.block.framer.txMode = .sleep ∧
        t.block.framer.txIdx = 0)

/-- The wake and the sleep frame, emitted whole from an idle framer (41_command_framer.md R79, R80): their nineteen bytes,
the mark on the last alone, and the framer idle again. One step does it all: the model's form (log 11). -/
def Obligations.WholeFramesAreEmitted : Prop :=
  ∀ (s : State), s.block.framer.wf = true → s.block.framer.txBusy = false →
    (∃ t, exec .cmdWake s = .next t ∧ t.block.framer.txBusy = false ∧ t.block.framer.txMode = .sleep ∧
      t.block.framer.txIdx = 0 ∧
      ChangesOnlyFramer s t (.cmdReq .wake :: (([0xAA, 0xB4, 0x06, 0x01, 0x01, 0, 0, 0, 0, 0, 0, 0, 0, 0, 0, 0xFF, 0xFF, 0x06]
        : List Byte).map (fun b => TraceItem.tx ⟨false, b⟩) ++ [.tx ⟨true, 0xAB⟩]))) ∧
    (∃ t, exec .cmdSleep s = .next t ∧ t.block.framer.txBusy = false ∧ t.block.framer.txMode = .sleep ∧
      t.block.framer.txIdx = 0 ∧
      ChangesOnlyFramer s t (.cmdReq .sleep :: (([0xAA, 0xB4, 0x06, 0x01, 0x00, 0, 0, 0, 0, 0, 0, 0, 0, 0, 0, 0xFF, 0xFF, 0x05]
        : List Byte).map (fun b => TraceItem.tx ⟨false, b⟩) ++ [.tx ⟨true, 0xAB⟩])))

/-- Whatever reader events and functions fall between, a request and nineteen takes emit BUILD(m), marked on the last byte,
and leave the framer idle (41_command_framer.md R81 a). -/
def Obligations.InterleavedFrameIsEmittedWhole : Prop :=
  ∀ (is : List Instr) (m : Mode) (s t : State), s.block.framer.txBusy = false → .reset ∉ is →
    is.filter framerSide = .cmdReq m :: List.replicate 19 .txTake → runEvents is s = .next t →
    ∃ ws, txs t.trace = txs s.trace ++ ws ∧ ws.map TxWord.data = (build wire m).toList ∧
      ws.map TxWord.last = List.replicate 18 false ++ [true] ∧ t.block.framer = Framer.reset

/-! ### The codec functions -/

/-- 40_codec.md R67: the sum modulo 256 of a sequence of any length. -/
def Obligations.ChecksumOperation : Prop :=
  ∀ (s : State) (bytes : List Byte), ∃ t v, exec (.checksum bytes) s = .next t ∧
    v.toNat = (bytes.map BitVec.toNat).sum % 256 ∧ ChangesOnlyCodec s t (.byte v)

/-- 40_codec.md R68: `lo + 256 * hi`. -/
def Obligations.U16leOperation : Prop :=
  ∀ (s : State) (lo hi : Byte), ∃ t v, exec (.u16le lo hi) s = .next t ∧
    v.toNat = lo.toNat + 256 * hi.toNat ∧ ChangesOnlyCodec s t (.half v)

/-- 40_codec.md R70: the byte at each offset, the checksum at offset 17 computed from offsets 2 to 16; no value beyond
offset 18. -/
def Obligations.CmdbyteOperation : Prop :=
  ∀ (s : State) (m : Mode) (i : BitVec 5),
    (i.toNat ≤ 18 → ∃ t v, exec (.cmdbyte m i) s = .next t ∧ ChangesOnlyCodec s t (.byte v) ∧
      v = (if i.toNat = 0 then 0xAA else if i.toNat = 1 then 0xB4 else if i.toNat = 2 then 0x06
        else if i.toNat = 3 then 0x01 else if i.toNat = 4 then m.bit.setWidth 8 else if i.toNat ≤ 14 then 0x00
        else if i.toNat ≤ 16 then 0xFF else if i.toNat = 17 then 0x05 + m.bit.setWidth 8 else 0xAB)) ∧
    (18 < i.toNat → exec (.cmdbyte m i) s = .refused .outsideDomain)

/-- 40_codec.md R71: BUILD gives CMDBYTE at every offset, and its checksum byte is the CHECKSUM of its offsets 2 to 16. -/
def Obligations.BuildOperation : Prop :=
  ∀ (s : State) (m : Mode), ∃ t f, exec (.build m) s = .next t ∧ ChangesOnlyCodec s t (.frame f) ∧
    (∀ i : Fin 19, f[i] = cmdByte wire m i) ∧ f[17] = checksum ((f.toList.drop 2).take 15)

/-- 40_codec.md R72: PARSE on a window with a head, by the order id, checksum, tail; none on any other window. -/
def Obligations.ParseOperation : Prop :=
  ∀ (s : State) (f : Vector Byte 10),
    (f[0] = 0xAA → ∃ t p, exec (.parse f) s = .next t ∧ ChangesOnlyCodec s t (.parsed p) ∧
      (f[1] ≠ 0xC0 → p = .unexpectedCommandId) ∧
      (f[1] = 0xC0 → f[8] ≠ checksum [f[2], f[3], f[4], f[5], f[6], f[7]] → p = .checksumMismatch) ∧
      (f[1] = 0xC0 → f[8] = checksum [f[2], f[3], f[4], f[5], f[6], f[7]] → f[9] ≠ 0xAB → p = .badTail) ∧
      (f[1] = 0xC0 → f[8] = checksum [f[2], f[3], f[4], f[5], f[6], f[7]] → f[9] = 0xAB →
        p = .reading (f[3] ++ f[2]) (f[5] ++ f[4]))) ∧
    (f[0] ≠ 0xAA → exec (.parse f) s = .refused .outsideDomain)

/-- 40_codec.md R73: the exact rational r / 10, with one decimal digit. -/
def Obligations.TenthsOperation : Prop :=
  ∀ (s : State) (r : Half), ∃ t v, exec (.tenths r) s = .next t ∧ ChangesOnlyCodec s t (.tenths v) ∧
    10 * v.whole + v.digit.val = r.toNat ∧ v.toRat = (r.toNat : Rat) / 10

/-- The arithmetic laws of the codec (40_codec.md R69, L1, L2, L4, L5): reducing the sum as one goes, its order, every
single-byte change; and that field assembly loses nothing. -/
def Obligations.CodecArithmeticLaws : Prop :=
  (∀ s t : List Byte, (checksum (s ++ t)).toNat = ((checksum s).toNat + (checksum t).toNat) % 256) ∧
  (∀ s t : List Byte, s.Perm t → checksum s = checksum t) ∧
  (∀ (s : List Byte) (i : Nat) (h : i < s.length) (b : Byte), b ≠ s[i] → checksum (s.set i b) ≠ checksum s) ∧
  (∀ lo hi : Byte, (u16le lo hi).toNat % 256 = lo.toNat ∧ (u16le lo hi).toNat / 256 = hi.toNat)

/-- PARSE gives a reading exactly on the valid response frames (30_encoding.md R54), for any wire constants. -/
def Obligations.ParseReadsExactlyValidFrames : Prop :=
  ∀ (k : WireConstants) (f : Vector Byte 10) (a b : Half), parse k f = some (.reading a b) ↔
    (f[0] = k.head ∧ f[1] = k.rspId ∧ f[8] = checksum [f[2], f[3], f[4], f[5], f[6], f[7]] ∧ f[9] = k.tail) ∧
      a = f[3] ++ f[2] ∧ b = f[5] ++ f[4]

/-- Every change of one byte after the head of a valid frame is detected, under the name of the check it breaks
(95_test_vectors.md E4; 40_codec.md section R69, L5), for any wire constants. -/
def Obligations.SingleByteErrorsAreNamed : Prop :=
  ∀ (k : WireConstants) (f : Vector Byte 10) (i : Fin 10) (b : Byte), validFrame k f = true → 1 ≤ i.val → b ≠ f[i] →
    parse k (f.set i.val b i.isLt) =
      some (if i.val = 1 then .unexpectedCommandId else if i.val = 9 then .badTail else .checksumMismatch)

/-! ### What no event does -/

/-- The agents write nothing of each other, and the functions nothing of the block (10_state.md R13; 41_command_framer.md
R75; 40_codec.md R74). -/
def Obligations.AgentsWriteOnlyTheirOwn : Prop :=
  ∀ (i : Instr) (s t : State), exec i s = .next t →
    (readerSide i = true → t.block.framer = s.block.framer ∧ t.codec = s.codec ∧ txs t.trace = txs s.trace) ∧
    (framerSide i = true → t.block.reader = s.block.reader ∧ t.codec = s.codec ∧ t.offers = s.offers ∧
      rxs t.trace = rxs s.trace) ∧
    (codecSide i = true → t.block = s.block ∧ t.trace = s.trace ∧ t.offers = s.offers)

/-- A posted result is never overwritten (60_exceptions.md R101): while one waits, nothing but RES.TAKE and RESET changes
any element of the reader. -/
def Obligations.PostedResultIsNeverOverwritten : Prop :=
  ∀ (i : Instr) (s t : State), s.block.reader.resValid = true → i ≠ .resTake → i ≠ .reset → exec i s = .next t →
    t.block.reader = s.block.reader

/-- A result appears only on a tenth byte, RX.EOF, RX.FAIL or a frame delivered (42_stream_reader.md section 5, P4). -/
def Obligations.ResultsComeOnlyFromThreeEvents : Prop :=
  ∀ (i : Instr) (s t : State), s.block.reader.resValid = false → exec i s = .next t →
    t.block.reader.resValid = true →
    i = .rxEof ∨ i = .rxFail ∨
    (∃ b, i = .rxByte b ∧ s.block.reader.rstate = .frame ∧ s.block.reader.cnt = 9) ∨
    (∃ a A b B x y c, i = .rspData a A b B x y c)

/-- RESET is the only exit from CLOSED (70_reset_and_hazards.md R122, 60_exceptions.md R108): nothing else changes any
element of a closed reader. -/
def Obligations.OnlyResetLeavesClosed : Prop :=
  ∀ (i : Instr) (s t : State), s.block.reader.rstate = .closed → i ≠ .reset → exec i s = .next t →
    t.block.reader = s.block.reader

/-- An event of the reader and an event of the framer commute (10_state.md section 5, R26; 00_scope.md R12): done in either
order they give the same block. -/
def Obligations.ReaderAndFramerEventsCommute : Prop :=
  ∀ (i j : Instr) (s t u : State), readerSide i = true → framerSide j = true →
    ((exec i s = .next t → exec j t = .next u → ∃ t' u', exec j s = .next t' ∧ exec i t' = .next u' ∧
      u'.block = u.block ∧ u'.offers = u.offers ∧ u'.codec = u.codec) ∧
    (exec j s = .next t → exec i t = .next u → ∃ t' u', exec i s = .next t' ∧ exec j t' = .next u' ∧
      u'.block = u.block ∧ u'.offers = u.offers ∧ u'.codec = u.codec))

/-- In any run, what the reader does and every result taken depend on the reader's own events and RESET alone, and what the
framer does and every byte taken on the framer's own and RESET alone (10_state.md R13; 41_command_framer.md R81 d; TXS and
the results taken are read off the trace, log 3). -/
def Obligations.AgentsSeeOnlyTheirOwnEvents : Prop :=
  ∀ (is : List Instr) (s t : State), runEvents is s = .next t →
    (∃ t', runEvents (is.filter fun i => readerSide i || i == .reset) s = .next t' ∧
      t'.block.reader = t.block.reader ∧ taken 0 t'.trace = taken 0 t.trace ∧ rxs t'.trace = rxs t.trace) ∧
    (∃ t', runEvents (is.filter fun i => framerSide i || i == .reset) s = .next t' ∧
      t'.block.framer = t.block.framer ∧ txs t'.trace = txs t.trace)

/-! ### The clock edge -/

/-- The events that the pins bring about at an edge, by the table of 10_state.md R26: RESET overrides everything; without it
the edge's events are the reader's and the framer's, at most one of each, and each is the one its port's valid and ready give:
an RX event by `rx_kind`, RES.TAKE, CMD.REQ of `cmd_mode`, TX.TAKE; otherwise nothing (that the
reader's stands first is log 2). -/
def Obligations.EdgeHasOneEventOfEachAgent : Prop :=
  ∀ (p : Pins) (b : Block),
    (p.rst = true → eventsAt p b = [.reset]) ∧
    (p.rst = false → eventsAt p b = readerEventsAt p b.reader ++ framerEventsAt p b.framer) ∧
    ((readerEventsAt p b.reader).length ≤ 1 ∧ (framerEventsAt p b.framer).length ≤ 1) ∧
    (p.rxValid = true → b.reader.rstate ≠ .closed → b.reader.resValid = false →
      (p.rxKind = 0 → readerEventsAt p b.reader = [.rxByte p.rxData]) ∧
      (p.rxKind = 1 → readerEventsAt p b.reader = [.rxEof]) ∧
      (p.rxKind = 2 ∨ p.rxKind = 3 → readerEventsAt p b.reader = [.rxFail])) ∧
    (b.reader.resValid = true → p.resReady = true → readerEventsAt p b.reader = [.resTake]) ∧
    (¬ (p.rxValid = true ∧ b.reader.rstate ≠ .closed ∧ b.reader.resValid = false) →
      ¬ (b.reader.resValid = true ∧ p.resReady = true) → readerEventsAt p b.reader = []) ∧
    (p.cmdValid = true → b.framer.txBusy = false →
      (p.cmdMode = 0 → framerEventsAt p b.framer = [.cmdReq .sleep]) ∧
      (p.cmdMode = 1 → framerEventsAt p b.framer = [.cmdReq .wake])) ∧
    (b.framer.txBusy = true → p.txReady = true → framerEventsAt p b.framer = [.txTake]) ∧
    (¬ (p.cmdValid = true ∧ b.framer.txBusy = false) → ¬ (b.framer.txBusy = true ∧ p.txReady = true) →
      framerEventsAt p b.framer = [])

/-- An edge always has a next state in a well-formed block: with `rst` the reset block, without it each agent where its own
events alone would take it; which events the pins bring about is EdgeHasOneEventOfEachAgent (10_state.md R26; the order
inside the edge is log 2). -/
def Obligations.EdgeStepsBothAgents : Prop :=
  ∀ (p : Pins) (s : State), s.block.wf = true →
    (p.rst = true → ∃ t, clockEdge p s = .next t ∧ t.block = Block.reset) ∧
    (p.rst = false → ∃ t tr tf, clockEdge p s = .next t ∧ runEvents (readerEventsAt p s.block.reader) s = .next tr ∧
      runEvents (framerEventsAt p s.block.framer) s = .next tf ∧
      t.block.reader = tr.block.reader ∧ t.block.framer = tf.block.framer)

/-! ### The step -/

/-- The step runs the first offer that is not held, the offers before it staying held, in order (00_scope.md R11; the form of
the offers is log 1): a word that decodes by its operation; and inbound bytes that are no response frame by RX.BYTE of the
first, the others held out behind it as their RX words (30_encoding.md R62, R65; log 18). -/
def Obligations.StepRunsTheFirstOpenOffer : Prop :=
  ∀ (s : State) (pre post : List Offer) (o : Offer), s.offers = pre ++ o :: post → (∀ x ∈ pre, Held s.block x) →
    (∀ i, decode o = .ok i → enabled i s.block = true → step s = exec i (s.withOffers (pre ++ post))) ∧
    (∀ b bs e, o = ⟨.frameIn, b :: bs⟩ → decode o = .error e → s.block.reader.rstate ≠ .closed →
      s.block.reader.resValid = false →
      step s = exec (.rxByte b) (s.withOffers (bs.map (fun x => encode (.rxByte x)) ++ (pre ++ post))))

/-- What the step does where it runs no enabled event (log 1, log 5, log 17, log 18): with nothing held out, and with every offer
held, there is no step; `rst` = 0 and an inbound wire without a byte ask for no event, so the word goes by and nothing else
changes; and a word that is no word of its channel is rejected by name. -/
def Obligations.StepWithoutAnOpenOffer : Prop :=
  (∀ s : State, s.offers = [] → step s = .refused .nothingOffered) ∧
  (∀ s : State, s.offers ≠ [] → (∀ x ∈ s.offers, Held s.block x) → step s = .refused .notEnabled) ∧
  (∀ (s : State) (pre post : List Offer) (o : Offer), s.offers = pre ++ o :: post → (∀ x ∈ pre, Held s.block x) →
    ((o = ⟨.rst, [0x00]⟩ ∨ o = ⟨.frameIn, []⟩) → step s = .next (s.withOffers (pre ++ post))) ∧
    (∀ e, o.channel ≠ .frameIn → decode o = .error e → e ≠ .resetLow → step s = .refused (.undecodable e)))

/-- A table word given as the next word is decoded and run (log 8, log 13). -/
def Obligations.FetchWordIsRun : Prop :=
  ∀ (s : State) (nbits w : Nat) (i : Instr), decodeTableWord nbits w = some i →
    step (s.withFetchWord nbits w) = exec i (s.withOffers [])

/-- No offer that asks for an event overtakes an earlier one of its own port: what stands before the offer chosen is held at a
closed port, and where the offer chosen asks for an event (its operation, or RX.BYTE of inbound bytes, log 18) it is of other
ports (20_memory.md R44 a, c; the list is the model's, log 1). A word that asks for none is dealt with at once, by going by or
by being rejected, whatever is held before it. -/
def Obligations.NoOfferOvertakesItsPort : Prop :=
  ∀ (b : Block) (os rest : List Offer) (o : Offer), nextOffer b os = some (o, rest) →
    ∃ pre post, os = pre ++ o :: post ∧ rest = pre ++ post ∧
      ∀ x ∈ pre, ∃ j mj, ask x = .event j mj ∧ enabled j b = false ∧ ∀ i mi, ask o = .event i mi →
        (rxSide i = true → rxSide j = false) ∧ (i = .resTake → j ≠ .resTake) ∧ (i = .txTake → j ≠ .txTake) ∧
        (framerSide i = true → i ≠ .txTake → framerSide j = true → j = .txTake)

/-- 10_state.md R17, R21: every step keeps the invariants I1 to I9. -/
def Obligations.StepKeepsTheBlockWellFormed : Prop :=
  ∀ s t : State, s.block.wf = true → step s = .next t → t.block.wf = true

/-- Every step keeps the trace well formed and the block where it leads (00_scope.md R11, 30_encoding.md R64): a whole frame
or a delivered response is no more than the port events it expands to (30_encoding.md R65; log 3). -/
def Obligations.StepKeepsTheTraceReplayable : Prop :=
  ∀ s t : State, s.TraceLeadsHere → step s = .next t → t.TraceLeadsHere

/-- Every step keeps TXS the requested frames in order, none interleaved and none cut but by RESET (20_memory.md R33, R44 c;
41_command_framer.md R81 b; the trace is the model's field, log 3). -/
def Obligations.StepKeepsTxsTheRequestedFrames : Prop :=
  ∀ s t : State, s.TxsIsFrames → step s = .next t → t.TxsIsFrames

/-- Every step keeps the candidate the end of the received stream (20_memory.md R32: a byte is dropped or kept in order, the
re-scan works on the copy; the trace is the model's field, log 3). -/
def Obligations.StepKeepsTheCandidateOfTheStream : Prop :=
  ∀ s t : State, s.CandidateEndsRxs → step s = .next t → t.CandidateEndsRxs

/-! ### Encodings -/

/-- Decoding the encoding of a well-formed operation gives it back, with every operand at every value (the channel in a word
is log 8). -/
def Obligations.DecodeEncodeRoundTrip : Prop :=
  ∀ i : Instr, WellFormed i = true → decode (encode i) = .ok i

/-- What decodes is well formed, and has the word it encodes to, but for the bits the block ignores (RX.EOF, RX.FAIL) or
drives itself (RES.TAKE, TX.TAKE) (30_encoding.md R59, R66; log 9). It holds because the channel is part of the word: words of
several rows are equal bit for bit (log 8, DESIGN CHOICE). -/
def Obligations.EachWordHasOneMeaning : Prop :=
  ∀ (o : Offer) (i : Instr), decode o = .ok i → WellFormed i = true ∧
    (i ≠ .rxEof → i ≠ .rxFail → i ≠ .resTake → i ≠ .txTake → encode i = o)

/-- 30_encoding.md R59: every RX word is an event, by `rx_kind`, and kind 3 is read as FAIL. -/
def Obligations.EveryRxWordIsAnEvent : Prop :=
  ∀ (kind : BitVec 2) (data : Byte), decode (wordOffer .rx (kind ++ data)) =
    .ok (if kind = 0 then .rxByte data else if kind = 1 then .rxEof else .rxFail)

/-- Words of the spec decode to the operations they stand for (30_encoding.md R54 to R61; 95_test_vectors.md; the ROM address
`{m, i[4:0]}` is opcode_table.json's row CMDBYTE, 30_encoding.md section 6, R66). The channels they stand on are log 8 (DESIGN
CHOICE). -/
def Obligations.SpecWordsDecode : Prop :=
  decode ⟨.rx, [0xAA, 0x00]⟩ = .ok (.rxByte 0xAA) ∧ decode ⟨.rx, [0x00, 0x01]⟩ = .ok .rxEof ∧
  decode ⟨.rx, [0x00, 0x02]⟩ = .ok .rxFail ∧ decode ⟨.cmd, [0x01]⟩ = .ok (.cmdReq .wake) ∧
  decode ⟨.frameIn, [0xAA, 0xC0, 0x28, 0x00, 0x3C, 0x00, 0x00, 0x00, 0x64, 0xAB]⟩ =
    .ok (.rspData 0x28 0x00 0x3C 0x00 0x00 0x00 0x64) ∧
  decode ⟨.frameOut, [0xAA, 0xB4, 0x06, 0x01, 0x01, 0, 0, 0, 0, 0, 0, 0, 0, 0, 0, 0xFF, 0xFF, 0x06, 0xAB]⟩ = .ok .cmdWake ∧
  decode ⟨.cmdbyte, [0x31]⟩ = .ok (.cmdbyte .wake 17)

/-- The words the block drives (30_encoding.md R60, R61): the fields of the RES word and of the TX word, and the codes of the
result kinds. -/
def Obligations.OutboundWordsHaveTheirFields : Prop :=
  (∀ r : Result, r.word.extractLsb' 32 3 = r.kind.code ∧ r.word.extractLsb' 16 16 = r.pm25 ∧
    r.word.extractLsb' 0 16 = r.pm10) ∧
  (∀ w : TxWord, w.word.extractLsb' 0 8 = w.data ∧ w.word.getLsbD 8 = w.last) ∧
  (ResKind.none.code = 0 ∧ ResKind.reading.code = 1 ∧ ResKind.checksumMismatch.code = 2 ∧
    ResKind.unexpectedCommandId.code = 3 ∧ ResKind.badTail.code = 4 ∧ ResKind.ioFailure.code = 5 ∧ ResKind.eof.code = 6)

/-! ### `read_next()` -/

/-- `read_next()` on the machine is its events and one RES.TAKE (42_stream_reader.md R98): it hands over the result, and the
block is where the events lead. -/
def Obligations.ReadNextIsARunOfTheMachine : Prop :=
  ∀ (es rest : List RxEvent) (x : Result) (r' : Reader) (s : State), s.block.reader.wf wire = true →
    s.block.reader.readNext wire es = some (x, rest, r') →
    ∃ used t, es = used ++ rest ∧ runEvents (used.map RxEvent.instr ++ [.resTake]) s = .next t ∧
      t.block.reader = r' ∧ ChangesOnlyReader s t (used.map RxEvent.item ++ [.take x])

/-- Noise then frame (42_stream_reader.md section 5, P1; 95_test_vectors.md E5), for any wire constants: `read_next()` gives
the frame's reading and consumes exactly the N noise bytes and the ten of the frame. -/
def Obligations.NoiseThenFrameIsRead : Prop :=
  ∀ (k : WireConstants) (noise rest : List Byte) (f : Vector Byte 10), (∀ b ∈ noise, b ≠ k.head) →
    validFrame k f = true →
    Reader.reset.readNext k (byteEvents (noise ++ f.toList ++ rest)) =
      some (⟨.reading, u16le f[2] f[3], u16le f[4] f[5]⟩, byteEvents rest, Reader.reset)

/-- Corrupted then valid (42_stream_reader.md section 5, P2; 95_test_vectors.md E6), for any wire constants. -/
def Obligations.CorruptedThenValidFrame : Prop :=
  ∀ (k : WireConstants) (w f : Vector Byte 10) (rest : List Byte), w[0] = k.head → w[1] = k.rspId →
    w[8] ≠ checksum [w[2], w[3], w[4], w[5], w[6], w[7]] → validFrame k f = true →
    Reader.reset.readMany k 2 (byteEvents (w.toList ++ f.toList ++ rest)) =
      some ([⟨.checksumMismatch, 0, 0⟩, ⟨.reading, u16le f[2] f[3], u16le f[4] f[5]⟩], byteEvents rest, Reader.reset)

/-- A false head before a frame (42_stream_reader.md section 5, P3 and P5; 95_test_vectors.md V12, V13), for any wire
constants: a head and up to eight bytes that are no heads, the byte after the head not the response id, then a valid frame.
The first call reports the id after ten bytes, and the second reads the frame after exactly the bytes that are left of it. -/
def Obligations.FalseHeadIsRecovered : Prop :=
  ∀ (k : WireConstants) (junk rest : List Byte) (f : Vector Byte 10), junk.length ≤ 8 → (∀ b ∈ junk, b ≠ k.head) →
    (∀ b, (junk ++ f.toList).head? = some b → b ≠ k.rspId) → validFrame k f = true →
    ∃ r', Reader.reset.readNext k (byteEvents (k.head :: junk ++ f.toList ++ rest)) =
        some (⟨.unexpectedCommandId, 0, 0⟩, byteEvents ((k.head :: junk ++ f.toList ++ rest).drop 10), r') ∧
      r'.readNext k (byteEvents ((k.head :: junk ++ f.toList ++ rest).drop 10)) =
        some (⟨.reading, u16le f[2] f[3], u16le f[4] f[5]⟩, byteEvents rest, Reader.reset)

/-- After the end of the stream or a failure every further call returns that same result (42_stream_reader.md R98,
60_exceptions.md R108). -/
def Obligations.TerminalResultIsReturnedForEver : Prop :=
  ∀ (n : Nat) (es : List RxEvent) (r : Reader), r.wf wire = true → r.rstate = .closed →
    (r.resKind = .ioFailure ∨ r.resKind = .eof) ∧
    r.readMany wire n es = some (List.replicate n ⟨r.resKind, 0, 0⟩, es, r)

/-- The standing desynchronisation of 70_reset_and_hazards.md R130: joined in mid-frame, the stream of one valid frame gives
CHECKSUM_MISMATCH for ever; read from its head it gives its reading every time. -/
def Obligations.StandingDesynchronisation : Prop :=
  ∀ (n : Nat) (rest : List Byte),
    let g : List Byte := [0xAA, 0xC0, 0x10, 0x00, 0xAA, 0xC0, 0x01, 0x02, 0x7D, 0xAB]
    Reader.reset.readMany wire n
      (byteEvents ((List.replicate n (g.drop 4 ++ g.take 4)).flatten ++ rest)) =
      some (List.replicate n ⟨.checksumMismatch, 0, 0⟩, byteEvents rest, Reader.reset) ∧
    Reader.reset.readMany wire n (byteEvents ((List.replicate n g).flatten ++ rest)) =
      some (List.replicate n ⟨.reading, 16, 49322⟩, byteEvents rest, Reader.reset)
end

