-- ==== Sys2Proof/Laws/Codec.lean ====
section
/-! SUPPORT. Facts of the codec functions (40_codec.md R69) and of the frame buffer (20_memory.md R34). -/

namespace Sys2Proof.Machine

@[simp] theorem checksum_nil : checksum [] = 0 := rfl

/-- One 8-bit adder is enough (40_codec.md R67): each byte is added modulo 256. -/
@[simp] theorem checksum_cons (b : Byte) (s : List Byte) : checksum (b :: s) = b + checksum s := by
  simp [checksum, BitVec.ofNat_add]

theorem toNat_u16le (lo hi : Byte) : (u16le lo hi).toNat = lo.toNat + 256 * hi.toNat := by
  have := lo.isLt
  simp only [u16le, BitVec.toNat_append]
  rw [Nat.shiftLeft_eq, ← Nat.mul_comm, ← Nat.two_pow_add_eq_or_of_lt (i := 8) this]
  omega

theorem parse_head {k : WireConstants} {f : Vector Byte 10} (h : f[0] = k.head) :
    parse k f = some (classify k f) := by simp [parse, h]

theorem validFrame_iff (k : WireConstants) (f : Vector Byte 10) :
    validFrame k f = true ↔
      f[0] = k.head ∧ f[1] = k.rspId ∧ f[8] = checksum (rspPayload f) ∧ f[9] = k.tail := by
  simp [validFrame, and_assoc]

/-- A valid frame classifies as the reading of its two fields (30_encoding.md R54). -/
theorem classify_valid {k : WireConstants} {f : Vector Byte 10} (h : validFrame k f = true) :
    classify k f = .reading (u16le f[2] f[3]) (u16le f[4] f[5]) := by
  obtain ⟨-, h1, h8, h9⟩ := (validFrame_iff k f).1 h
  simp [classify, h1, h8, h9]

theorem length_frame (k : WireConstants) (m : Mode) : (build k m).toList.length = 19 := by simp

theorem getElem_build (k : WireConstants) (m : Mode) (i : Fin 19) : (build k m)[i] = cmdByte k m i := by
  simp [build]

/-! ### The frame buffer -/

@[simp] theorem memRead1_emptyBuf (i : Fin 10) : memRead1 emptyBuf i = 0 := by
  simp [memRead1, emptyBuf]

/-- A read after a write (20_memory.md R34). -/
theorem memRead1_memWrite1 (buf : Vector Byte 10) (a i : Fin 10) (v : Byte) :
    memRead1 (memWrite1 buf a v) i = if a = i then v else memRead1 buf i := by
  simp [memRead1, memWrite1, Vector.getElem_set, Fin.ext_iff]

/-- The two-byte read is U16LE of its bytes, the lower address low (20_memory.md R34, R36; 42_stream_reader.md R92). -/
theorem memRead2_eq_u16le (buf : Vector Byte 10) (a : Fin 9) :
    memRead2 buf a = u16le (memRead1 buf ⟨a.val, by omega⟩) (memRead1 buf ⟨a.val + 1, by omega⟩) := rfl

theorem memRead1_shiftDown (w : Vector Byte 10) (k : Nat) (i : Fin 10) :
    memRead1 (shiftDown w k) i = if h : i.val + k < 10 then w[i.val + k] else 0 := by
  simp [memRead1, shiftDown]

/-- What the re-scan's answer means (42_stream_reader.md R89 a): a hit is the first head at or after offset 1,
a miss means there is none. -/
theorem rescan_eq_some {k : WireConstants} {w : Vector Byte 10} {i : Fin 10} (h : rescan k w = some i) :
    1 ≤ i.val ∧ w[i] = k.head ∧ ∀ j : Fin 10, 1 ≤ j.val → j < i → w[j] ≠ k.head := by
  rw [rescan, List.find?_eq_some_iff_getElem] at h
  obtain ⟨hd, n, hn, hi, hlt⟩ := h
  have hget : ∀ m (hm : m < 9), ([1, 2, 3, 4, 5, 6, 7, 8, 9] : List (Fin 10))[m].val = m + 1 := by decide
  simp only [List.length_cons, List.length_nil, Nat.zero_add, Nat.reduceAdd] at hn
  have hv := hget n hn
  rw [hi] at hv
  refine ⟨by omega, by simpa using hd, fun j hj hji => ?_⟩
  have hjn : j.val - 1 < n := by omega
  have hj' := hget (j.val - 1) (by omega)
  have := hlt (j.val - 1) hjn
  have hje : ([1, 2, 3, 4, 5, 6, 7, 8, 9] : List (Fin 10))[j.val - 1] = j := by
    apply Fin.ext; rw [hj']; omega
  simpa [hje] using this

theorem rescan_eq_none {k : WireConstants} {w : Vector Byte 10} (h : rescan k w = none) (j : Fin 10)
    (hj : 1 ≤ j.val) : w[j] ≠ k.head := by
  rw [rescan, List.find?_eq_none] at h
  have hm : j ∈ ([1, 2, 3, 4, 5, 6, 7, 8, 9] : List (Fin 10)) := by revert j; decide
  simpa using h j hm

end Sys2Proof.Machine
end

