-- ==== Sys2Proof/Laws/State.lean ====
section
/-! SUPPORT. Each field of the machine under each update, and each element of the reader and the framer under each
of their steps: true by rfl. -/

namespace Sys2Proof.Machine

variable (s : State) (r q : Reader) (f g : Framer)

@[simp] theorem State.withReader_block_reader : (s.withReader q).block.reader = q := rfl
@[simp] theorem State.withReader_block_framer : (s.withReader q).block.framer = s.block.framer := rfl
@[simp] theorem State.withReader_trace : (s.withReader q).trace = s.trace := rfl
@[simp] theorem State.withReader_offers : (s.withReader q).offers = s.offers := rfl
@[simp] theorem State.withReader_codec : (s.withReader q).codec = s.codec := rfl

@[simp] theorem State.withFramer_block_reader : (s.withFramer g).block.reader = s.block.reader := rfl
@[simp] theorem State.withFramer_block_framer : (s.withFramer g).block.framer = g := rfl
@[simp] theorem State.withFramer_trace : (s.withFramer g).trace = s.trace := rfl
@[simp] theorem State.withFramer_offers : (s.withFramer g).offers = s.offers := rfl
@[simp] theorem State.withFramer_codec : (s.withFramer g).codec = s.codec := rfl

@[simp] theorem State.record_block (items : List TraceItem) : (s.record items).block = s.block := rfl
@[simp] theorem State.record_trace (items : List TraceItem) : (s.record items).trace = s.trace ++ items := rfl
@[simp] theorem State.record_offers (items : List TraceItem) : (s.record items).offers = s.offers := rfl
@[simp] theorem State.record_codec (items : List TraceItem) : (s.record items).codec = s.codec := rfl

@[simp] theorem State.withOffers_block (os : List Offer) : (s.withOffers os).block = s.block := rfl
@[simp] theorem State.withOffers_trace (os : List Offer) : (s.withOffers os).trace = s.trace := rfl
@[simp] theorem State.withOffers_offers (os : List Offer) : (s.withOffers os).offers = os := rfl
@[simp] theorem State.withOffers_codec (os : List Offer) : (s.withOffers os).codec = s.codec := rfl

@[simp] theorem State.withCodec_block (v : CodecValue) : (s.withCodec v).block = s.block := rfl
@[simp] theorem State.withCodec_trace (v : CodecValue) : (s.withCodec v).trace = s.trace := rfl
@[simp] theorem State.withCodec_offers (v : CodecValue) : (s.withCodec v).offers = s.offers := rfl
@[simp] theorem State.withCodec_codec (v : CodecValue) : (s.withCodec v).codec = some v := rfl

@[simp] theorem Reader.post_rstate (kd : ResKind) (a b : Half) : (r.post kd a b).rstate = r.rstate := rfl
@[simp] theorem Reader.post_cnt (kd : ResKind) (a b : Half) : (r.post kd a b).cnt = r.cnt := rfl
@[simp] theorem Reader.post_buf (kd : ResKind) (a b : Half) : (r.post kd a b).buf = r.buf := rfl
@[simp] theorem Reader.post_resValid (kd : ResKind) (a b : Half) : (r.post kd a b).resValid = true := rfl
@[simp] theorem Reader.post_resKind (kd : ResKind) (a b : Half) : (r.post kd a b).resKind = kd := rfl
@[simp] theorem Reader.post_resPm25 (kd : ResKind) (a b : Half) : (r.post kd a b).resPm25 = a := rfl
@[simp] theorem Reader.post_resPm10 (kd : ResKind) (a b : Half) : (r.post kd a b).resPm10 = b := rfl

@[simp] theorem Reader.raise_rstate (kd : ResKind) : (r.raise kd).rstate = r.rstate := rfl
@[simp] theorem Reader.raise_cnt (kd : ResKind) : (r.raise kd).cnt = r.cnt := rfl
@[simp] theorem Reader.raise_buf (kd : ResKind) : (r.raise kd).buf = r.buf := rfl
@[simp] theorem Reader.raise_resValid (kd : ResKind) : (r.raise kd).resValid = true := rfl
@[simp] theorem Reader.raise_resKind (kd : ResKind) : (r.raise kd).resKind = kd := rfl
@[simp] theorem Reader.raise_resPm25 (kd : ResKind) : (r.raise kd).resPm25 = 0 := rfl
@[simp] theorem Reader.raise_resPm10 (kd : ResKind) : (r.raise kd).resPm10 = 0 := rfl

@[simp] theorem Reader.clear_rstate (st : RState) : (r.clear st).rstate = st := rfl
@[simp] theorem Reader.clear_cnt (st : RState) : (r.clear st).cnt = 0 := rfl
@[simp] theorem Reader.clear_buf (st : RState) : (r.clear st).buf = emptyBuf := rfl
@[simp] theorem Reader.clear_resValid (st : RState) : (r.clear st).resValid = r.resValid := rfl
@[simp] theorem Reader.clear_resKind (st : RState) : (r.clear st).resKind = r.resKind := rfl
@[simp] theorem Reader.clear_resPm25 (st : RState) : (r.clear st).resPm25 = r.resPm25 := rfl
@[simp] theorem Reader.clear_resPm10 (st : RState) : (r.clear st).resPm10 = r.resPm10 := rfl

@[simp] theorem Reader.unpost_rstate : (r.unpost).rstate = r.rstate := rfl
@[simp] theorem Reader.unpost_cnt : (r.unpost).cnt = r.cnt := rfl
@[simp] theorem Reader.unpost_buf : (r.unpost).buf = r.buf := rfl
@[simp] theorem Reader.unpost_resValid : (r.unpost).resValid = false := rfl
@[simp] theorem Reader.unpost_resKind : (r.unpost).resKind = .none := rfl
@[simp] theorem Reader.unpost_resPm25 : (r.unpost).resPm25 = 0 := rfl
@[simp] theorem Reader.unpost_resPm10 : (r.unpost).resPm10 = 0 := rfl

@[simp] theorem Reader.store_rstate (i : Fin 10) (b : Byte) (c : Fin 10) : (r.store i b c).rstate = .frame := rfl
@[simp] theorem Reader.store_cnt (i : Fin 10) (b : Byte) (c : Fin 10) : (r.store i b c).cnt = c := rfl
@[simp] theorem Reader.store_buf (i : Fin 10) (b : Byte) (c : Fin 10) : (r.store i b c).buf = memWrite1 r.buf i b := rfl
@[simp] theorem Reader.store_resValid (i : Fin 10) (b : Byte) (c : Fin 10) : (r.store i b c).resValid = r.resValid := rfl
@[simp] theorem Reader.store_resKind (i : Fin 10) (b : Byte) (c : Fin 10) : (r.store i b c).resKind = r.resKind := rfl
@[simp] theorem Reader.store_resPm25 (i : Fin 10) (b : Byte) (c : Fin 10) : (r.store i b c).resPm25 = r.resPm25 := rfl
@[simp] theorem Reader.store_resPm10 (i : Fin 10) (b : Byte) (c : Fin 10) : (r.store i b c).resPm10 = r.resPm10 := rfl

@[simp] theorem Reader.keepFrom_rstate (w : Vector Byte 10) (i : Fin 10) : (r.keepFrom w i).rstate = .frame := rfl
@[simp] theorem Reader.keepFrom_cnt (w : Vector Byte 10) (i : Fin 10) : (r.keepFrom w i).cnt = Fin.ofNat 10 (10 - i.val) := rfl
@[simp] theorem Reader.keepFrom_buf (w : Vector Byte 10) (i : Fin 10) : (r.keepFrom w i).buf = shiftDown w i.val := rfl
@[simp] theorem Reader.keepFrom_resValid (w : Vector Byte 10) (i : Fin 10) : (r.keepFrom w i).resValid = r.resValid := rfl
@[simp] theorem Reader.keepFrom_resKind (w : Vector Byte 10) (i : Fin 10) : (r.keepFrom w i).resKind = r.resKind := rfl
@[simp] theorem Reader.keepFrom_resPm25 (w : Vector Byte 10) (i : Fin 10) : (r.keepFrom w i).resPm25 = r.resPm25 := rfl
@[simp] theorem Reader.keepFrom_resPm10 (w : Vector Byte 10) (i : Fin 10) : (r.keepFrom w i).resPm10 = r.resPm10 := rfl

@[simp] theorem Framer.request_txBusy (m : Mode) : (f.request m).txBusy = true := rfl
@[simp] theorem Framer.request_txMode (m : Mode) : (f.request m).txMode = m := rfl
@[simp] theorem Framer.request_txIdx (m : Mode) : (f.request m).txIdx = 0 := rfl

end Sys2Proof.Machine
end

