-- ==== Sys2Proof/Laws/Reader.lean ====
section
/-! SUPPORT. What the reader's and the framer's steps do, said once, and that each keeps the invariants of
10_state.md R17 and R21. -/

namespace Sys2Proof.Machine

/-! ### The steps of the reader -/

theorem Reader.rxReady_iff (r : Reader) : r.rxReady = true ↔ r.rstate ≠ .closed ∧ r.resValid = false := by
  simp [Reader.rxReady]

theorem Reader.rxByte_seek_head {k : WireConstants} {b : Byte} {r : Reader} (h : r.rstate = .seek) (hb : b = k.head) :
    r.rxByte k b = r.store 0 b 1 := by simp [Reader.rxByte, h, hb]

theorem Reader.rxByte_seek_other {k : WireConstants} {b : Byte} {r : Reader} (h : r.rstate = .seek) (hb : b ≠ k.head) :
    r.rxByte k b = r := by simp [Reader.rxByte, h, hb]

theorem Reader.rxByte_collect {k : WireConstants} {b : Byte} {r : Reader} (h : r.rstate = .frame) (hc : r.cnt.val ≤ 8) :
    r.rxByte k b = r.store r.cnt b ⟨r.cnt.val + 1, by omega⟩ := by simp [Reader.rxByte, h, hc]

theorem Reader.rxByte_tenth {k : WireConstants} {b : Byte} {r : Reader} (h : r.rstate = .frame) (hc : r.cnt.val = 9) :
    r.rxByte k b = r.complete k b := by simp [Reader.rxByte, h, hc]

/-- Everything a tenth byte can do (42_stream_reader.md R86): one of R92, R91, R90, R88 with its two ends. -/
theorem Reader.complete_cases (k : WireConstants) (b : Byte) (r : Reader) :
    (∃ p q, classify k (window r.buf b) = .reading p q ∧ r.complete k b = (r.clear .seek).post .reading p q) ∨
    (classify k (window r.buf b) = .badTail ∧ r.complete k b = (r.clear .seek).raise .badTail) ∨
    (classify k (window r.buf b) = .checksumMismatch ∧ r.complete k b = (r.clear .seek).raise .checksumMismatch) ∨
    (classify k (window r.buf b) = .unexpectedCommandId ∧ rescan k (window r.buf b) = none ∧
      r.complete k b = (r.clear .seek).raise .unexpectedCommandId) ∨
    (∃ i, classify k (window r.buf b) = .unexpectedCommandId ∧ rescan k (window r.buf b) = some i ∧
      r.complete k b = (r.keepFrom (window r.buf b) i).raise .unexpectedCommandId) := by
  unfold Reader.complete Reader.resync
  cases hc : classify k (window r.buf b) <;> cases hr : rescan k (window r.buf b) <;> simp [hc, hr]

/-- Everything a byte can do to an open reader (42_stream_reader.md R96, its RX.BYTE rows). -/
theorem Reader.rxByte_cases {k : WireConstants} {r : Reader} (b : Byte) (ho : r.rxReady = true) :
    (r.rstate = .seek ∧ b ≠ k.head ∧ r.rxByte k b = r) ∨
    (r.rstate = .seek ∧ b = k.head ∧ r.rxByte k b = r.store 0 b 1) ∨
    (r.rstate = .frame ∧ ∃ h : r.cnt.val ≤ 8, r.rxByte k b = r.store r.cnt b ⟨r.cnt.val + 1, by omega⟩) ∨
    (r.rstate = .frame ∧ r.cnt.val = 9 ∧ r.rxByte k b = r.complete k b) := by
  have hcl := (r.rxReady_iff.1 ho).1
  cases hs : r.rstate with
  | seek =>
    by_cases hb : b = k.head
    · exact .inr (.inl ⟨rfl, hb, Reader.rxByte_seek_head hs hb⟩)
    · exact .inl ⟨rfl, hb, Reader.rxByte_seek_other hs hb⟩
  | frame =>
    by_cases hc : r.cnt.val ≤ 8
    · exact .inr (.inr (.inl ⟨rfl, hc, Reader.rxByte_collect hs hc⟩))
    · have : r.cnt.val = 9 := by omega
      exact .inr (.inr (.inr ⟨rfl, this, Reader.rxByte_tenth hs this⟩))
  | closed => exact absurd hs hcl

/-- A tenth byte always posts a result (42_stream_reader.md R86). -/
@[simp] theorem Reader.complete_resValid (k : WireConstants) (b : Byte) (r : Reader) :
    (r.complete k b).resValid = true := by
  rcases r.complete_cases k b with ⟨_, _, -, h⟩ | ⟨-, h⟩ | ⟨-, h⟩ | ⟨-, -, h⟩ | ⟨_, -, -, h⟩ <;> simp [h]

/-! ### The invariants under the steps -/

/-- The invariants I2 to I7, one by one (10_state.md R17). -/
theorem Reader.wf_iff {k : WireConstants} {r : Reader} :
    r.wf k = true ↔ r.I2 ∧ r.I3 k ∧ r.I4 ∧ r.I5 ∧ r.I6 ∧ r.I7 := by simp only [Reader.wf, decide_eq_true_iff]

/-- I9 (10_state.md R21). -/
theorem Framer.wf_iff {f : Framer} : f.wf = true ↔ (f.txBusy = false → f.txMode = .sleep ∧ f.txIdx = 0) := by
  simp only [Framer.wf, decide_eq_true_iff]


theorem Reader.wf_reset (k : WireConstants) : Reader.reset.wf k = true := by
  refine Reader.wf_iff.2 ⟨fun _ => rfl, fun h => ?_, fun h => ?_, fun i _ => memRead1_emptyBuf i,
    fun _ => ⟨rfl, rfl, rfl⟩, fun h => ?_, fun _ => ⟨rfl, rfl⟩, fun h => ?_⟩ <;> simp [Reader.reset] at h

/-- A reader cleared to SEEK with a frame-level result posted keeps the invariants. -/
theorem Reader.wf_clear_post {k : WireConstants} (r : Reader) {kd : ResKind} {a b : Half}
    (hk : kd ≠ .none ∧ kd ≠ .ioFailure ∧ kd ≠ .eof) (hf : kd ≠ .reading → a = 0 ∧ b = 0) :
    ((r.clear .seek).post kd a b).wf k = true := by
  obtain ⟨h0, h5, h6⟩ := hk
  exact Reader.wf_iff.2 ⟨fun _ => rfl, fun h => by simp at h, fun h => by simp at h, fun i _ => by simp, fun h => by simp at h,
    fun _ => h0, hf, fun h => by simp_all⟩

/-- A reader closed with a terminal result posted keeps the invariants. -/
theorem Reader.wf_close {k : WireConstants} (r : Reader) {kd : ResKind} (hk : kd = .ioFailure ∨ kd = .eof) :
    ((r.clear .closed).raise kd).wf k = true := by
  refine Reader.wf_iff.2 ⟨fun h => by simp at h, fun h => by simp at h, fun _ => ⟨rfl, rfl, hk⟩, fun i _ => by simp,
    fun h => by simp at h, fun _ => ?_, fun _ => ⟨rfl, rfl⟩, fun _ => rfl⟩
  rcases hk with h | h <;> simp [h]

/-- A re-scan hit keeps the invariants: the kept bytes begin with a head (42_stream_reader.md R89 b). -/
theorem Reader.wf_keepFrom {k : WireConstants} (r : Reader) {w : Vector Byte 10} {i : Fin 10}
    (h : rescan k w = some i) : ((r.keepFrom w i).raise .unexpectedCommandId).wf k = true := by
  obtain ⟨h1, hw, -⟩ := rescan_eq_some h
  have hc : (Fin.ofNat 10 (10 - i.val)).val = 10 - i.val := by
    simp only [Fin.val_ofNat]; omega
  refine Reader.wf_iff.2 ⟨fun h => by simp at h, fun _ => ⟨hc ▸ (by omega), ?_⟩, fun h => by simp at h, fun j hj => ?_,
    fun h => by simp at h, fun _ => by simp, fun _ => ⟨rfl, rfl⟩, fun h => by simp at h⟩
  · simpa [memRead1_shiftDown] using hw
  · have hj' : 10 - i.val ≤ j.val := hc ▸ Fin.le_def.1 hj
    simp only [Reader.raise_buf, Reader.keepFrom_buf, memRead1_shiftDown]
    rw [dif_neg (by omega)]

theorem Reader.wf_complete {k : WireConstants} (b : Byte) (r : Reader) : (r.complete k b).wf k = true := by
  rcases r.complete_cases k b with ⟨p, q, -, h⟩ | ⟨-, h⟩ | ⟨-, h⟩ | ⟨-, -, h⟩ | ⟨i, -, hi, h⟩ <;> rw [h]
  · exact r.wf_clear_post (by decide) (by simp)
  · exact r.wf_clear_post (by decide) (by simp)
  · exact r.wf_clear_post (by decide) (by simp)
  · exact r.wf_clear_post (by decide) (by simp)
  · exact r.wf_keepFrom hi

theorem Reader.wf_rxByte {k : WireConstants} {r : Reader} (b : Byte) (ho : r.rxReady = true) (h : r.wf k = true) :
    (r.rxByte k b).wf k = true := by
  have hv := (r.rxReady_iff.1 ho).2
  have hk := h
  obtain ⟨i2, i3, i4, i5, i6, i7⟩ := Reader.wf_iff.1 h
  obtain ⟨hn, h25, h10⟩ := i6 hv
  rcases Reader.rxByte_cases (k := k) b ho with ⟨-, -, e⟩ | ⟨hs, hb, e⟩ | ⟨hs, hc, e⟩ | ⟨-, -, e⟩ <;> rw [e]
  · exact hk
  · refine Reader.wf_iff.2 ⟨fun h => by simp at h, fun _ => ⟨by simp, by simp [memRead1_memWrite1, hb]⟩, fun h => by simp at h,
      fun j hj => ?_, fun _ => ⟨hn, h25, h10⟩, by simp [hv], fun _ => ⟨h25, h10⟩, fun h => by simp [hn] at h⟩
    have h0 : (0 : Fin 10) ≠ j := by rintro rfl; simp at hj
    simp only [Reader.store_buf, memRead1_memWrite1, if_neg h0]
    exact i5 j (by rw [i2 hs]; exact Fin.zero_le j)
  · obtain ⟨h1, hh⟩ := i3 hs
    refine Reader.wf_iff.2 ⟨fun h => by simp at h, fun _ => ⟨by simp, ?_⟩, fun h => by simp at h, fun j hj => ?_,
      fun _ => ⟨hn, h25, h10⟩, by simp [hv], fun _ => ⟨h25, h10⟩, fun h => by simp [hn] at h⟩
    · have h0 : r.cnt ≠ 0 := by intro h; simp [h] at h1
      simpa [memRead1_memWrite1, h0] using hh
    · have hj' : r.cnt.val + 1 ≤ j.val := hj
      have h0 : r.cnt ≠ j := by intro h; rw [h] at hj'; omega
      simp only [Reader.store_buf, memRead1_memWrite1, if_neg h0]
      exact i5 j (Fin.le_def.2 (by omega))
  · exact r.wf_complete b

theorem Reader.wf_accept {k : WireConstants} {r : Reader} (e : RxEvent) (ho : r.rxReady = true) (h : r.wf k = true) :
    (r.accept k e).wf k = true := by
  cases e with
  | byte b => exact Reader.wf_rxByte b ho h
  | eof => exact r.wf_close (.inr rfl)
  | fail => exact r.wf_close (.inl rfl)

theorem Reader.wf_takeResult {k : WireConstants} {r : Reader} (h : r.wf k = true) : r.takeResult.wf k = true := by
  unfold Reader.takeResult
  split
  · exact h
  · rename_i hc
    obtain ⟨i2, i3, i4, i5, -, -⟩ := Reader.wf_iff.1 h
    exact Reader.wf_iff.2 ⟨i2, i3, fun h => absurd h hc, i5, fun _ => ⟨rfl, rfl, rfl⟩, by simp, fun _ => ⟨rfl, rfl⟩, by simp⟩

theorem Reader.wf_deliver {k : WireConstants} (bs : List Byte) {r : Reader} (h : r.wf k = true) :
    (Reader.deliver k bs r).1.wf k = true := by
  induction bs generalizing r with
  | nil => exact h
  | cons b bs ih =>
    unfold Reader.deliver
    split
    · rename_i ho
      exact ih (Reader.wf_rxByte b ho h)
    · exact h

/-! ### The steps of the framer -/

theorem Framer.takeByte_lt {f : Framer} (h : f.txIdx.val < 18) :
    f.takeByte = { f with txIdx := ⟨f.txIdx.val + 1, by omega⟩ } := by simp [Framer.takeByte, h]

theorem Framer.takeByte_last {f : Framer} (h : f.txIdx.val = 18) : f.takeByte = Framer.reset := by
  simp [Framer.takeByte, h, Framer.reset]

theorem Framer.wf_reset : Framer.reset.wf = true := by decide

theorem Framer.wf_takeByte {f : Framer} (hb : f.txBusy = true) : f.takeByte.wf = true := by
  unfold Framer.takeByte
  split
  · exact Framer.wf_iff.2 fun h => absurd (hb.symm.trans h) (by decide)
  · exact Framer.wf_iff.2 fun _ => ⟨rfl, rfl⟩

theorem Framer.wf_request (m : Mode) (f : Framer) : (f.request m).wf = true :=
  Framer.wf_iff.2 fun h => by simp at h

end Sys2Proof.Machine
end

