-- ==== Sys2Proof/Laws/Exec.lean ====
section
/-! SUPPORT. Everything the shared operations can do: when they give a next state, and which; and the framer's runs. -/

namespace Sys2Proof.Machine

variable {s t : State}

/-- A reader event has a next state exactly where its port is open and the reader is well formed. -/
theorem readerEvent_next_iff {o : Bool} {f : Reader → Reader} {item : TraceItem} :
    readerEvent o f item s = .next t ↔
      o = true ∧ s.block.reader.wf wire = true ∧ t = (s.withReader (f s.block.reader)).record [item] := by
  unfold readerEvent
  split
  · rename_i ho
    split
    · rename_i hw
      exact ⟨fun h => ⟨ho, hw, (Host.Outcome.next.inj h).symm⟩, fun h => h.2.2 ▸ rfl⟩
    · rename_i hw
      exact ⟨nofun, fun h => absurd h.2.1 hw⟩
  · rename_i ho
    exact ⟨nofun, fun h => absurd h.1 ho⟩

theorem readerEvent_next {o : Bool} {f : Reader → Reader} {item : TraceItem} (ho : o = true)
    (hw : s.block.reader.wf wire = true) :
    readerEvent o f item s = .next ((s.withReader (f s.block.reader)).record [item]) :=
  readerEvent_next_iff.2 ⟨ho, hw, rfl⟩

theorem readerEvent_closed {o : Bool} {f : Reader → Reader} {item : TraceItem} (ho : o = false) :
    readerEvent o f item s = .refused .notEnabled := by simp [readerEvent, ho]

/-- A framer event has a next state exactly where its port is open and the framer is well formed. -/
theorem framerEvent_next_iff {o : Bool} {f : Framer → Framer} {items : List TraceItem} :
    framerEvent o f items s = .next t ↔
      o = true ∧ s.block.framer.wf = true ∧ t = (s.withFramer (f s.block.framer)).record items := by
  unfold framerEvent
  split
  · rename_i ho
    split
    · rename_i hw
      exact ⟨fun h => ⟨ho, hw, (Host.Outcome.next.inj h).symm⟩, fun h => h.2.2 ▸ rfl⟩
    · rename_i hw
      exact ⟨nofun, fun h => absurd h.2.1 hw⟩
  · rename_i ho
    exact ⟨nofun, fun h => absurd h.1 ho⟩

theorem framerEvent_next {o : Bool} {f : Framer → Framer} {items : List TraceItem} (ho : o = true)
    (hw : s.block.framer.wf = true) :
    framerEvent o f items s = .next ((s.withFramer (f s.block.framer)).record items) :=
  framerEvent_next_iff.2 ⟨ho, hw, rfl⟩

theorem framerEvent_closed {o : Bool} {f : Framer → Framer} {items : List TraceItem} (ho : o = false) :
    framerEvent o f items s = .refused .notEnabled := by simp [framerEvent, ho]

/-- A codec function has a next state exactly on its domain. -/
theorem codecFunction_next_iff {v : Option CodecValue} :
    codecFunction v s = .next t ↔ ∃ x, v = some x ∧ t = s.withCodec x := by
  cases v <;> simp [codecFunction, eq_comm]

/-! ### Runs -/

theorem runEvents_append (is js : List Instr) :
    runEvents (is ++ js) s =
      match runEvents is s with
      | .next t => runEvents js t
      | .fault r => .fault r
      | .refused r => .refused r := by
  induction is generalizing s with
  | nil => rfl
  | cons i is ih =>
    simp only [List.cons_append, runEvents]
    cases exec i s with
    | next t => exact ih
    | fault r => rfl
    | refused r => rfl

theorem runEvents_cons_next {i : Instr} {is : List Instr} (h : exec i s = .next t) :
    runEvents (i :: is) s = runEvents is t := by simp [runEvents, h]

/-! ### The framer's run of a frame -/

theorem length_frameWords (k : WireConstants) (m : Mode) : (frameWords k m).length = 19 := by simp [frameWords]

/-- A busy framer hands over the first of the words that remain, and leaves the rest (41_command_framer.md R77). -/
theorem Framer.remaining_takeByte {k : WireConstants} {f : Framer} (h : f.txBusy = true) :
    f.remaining k = f.txWord k :: f.takeByte.remaining k := by
  have hl : f.txIdx.val < (frameWords k f.txMode).length := by rw [length_frameWords]; exact f.txIdx.isLt
  have hw : (frameWords k f.txMode)[f.txIdx.val] = f.txWord k := by
    simp [frameWords, Framer.txWord, Framer.txLast, Framer.txData, h]
  simp only [Framer.remaining, h, if_true]
  rw [List.drop_eq_getElem_cons hl, hw]
  by_cases h18 : f.txIdx.val < 18
  · simp [Framer.takeByte_lt h18, h]
  · have h18 : f.txIdx.val = 18 := by omega
    rw [Framer.takeByte_last h18, List.drop_eq_nil_of_le (by rw [length_frameWords, h18])]
    rfl

/-- The takes that are left of a frame give the words that remain and end idle. -/
theorem Framer.takeBytes_remaining {k : WireConstants} (n : Nat) {f : Framer} (h : f.txBusy = true)
    (hn : f.txIdx.val + n = 19) : Framer.takeBytes k n f = (Framer.reset, f.remaining k) := by
  induction n generalizing f with
  | zero => omega
  | succ n ih =>
    simp only [Framer.takeBytes, Framer.remaining_takeByte h]
    by_cases h18 : f.txIdx.val < 18
    · rw [ih (by simp [Framer.takeByte_lt h18, h]) (by rw [Framer.takeByte_lt h18]; simp; omega)]
    · have h18 : f.txIdx.val = 18 := by omega
      have : n = 0 := by omega
      subst this
      rw [Framer.takeByte_last h18]
      rfl

/-- The run of a whole frame gives its nineteen words and ends idle (41_command_framer.md R79, R80). -/
theorem Framer.takeBytes_request (k : WireConstants) (m : Mode) (f : Framer) :
    Framer.takeBytes k 19 (f.request m) = (Framer.reset, frameWords k m) := by
  rw [Framer.takeBytes_remaining 19 rfl rfl]
  rfl

/-- Everything a whole-frame operation can do. -/
theorem wholeFrame_next_iff {m : Mode} :
    wholeFrame m s = .next t ↔ s.block.framer.cmdReady = true ∧ s.block.framer.wf = true ∧
      t = (s.withFramer Framer.reset).record (.cmdReq m :: (frameWords wire m).map .tx) := by
  simp only [wholeFrame, framerEvent_next_iff, Framer.takeBytes_request]

/-! ### The meanings over the shared operations -/

theorem exec_rxByte (b : Byte) :
    exec (.rxByte b) s = readerEvent s.block.reader.rxReady (Reader.accept wire (.byte b)) (.rxByte b) s := rfl

theorem exec_rxEof :
    exec .rxEof s = readerEvent s.block.reader.rxReady (Reader.accept wire .eof) .rxEof s := rfl

theorem exec_rxFail :
    exec .rxFail s = readerEvent s.block.reader.rxReady (Reader.accept wire .fail) .rxFail s := rfl

theorem exec_resTake :
    exec .resTake s = readerEvent s.block.reader.resValid Reader.takeResult (.take s.block.reader.result) s := rfl

theorem exec_cmdReq (m : Mode) :
    exec (.cmdReq m) s = framerEvent s.block.framer.cmdReady (Framer.request m) [.cmdReq m] s := rfl

theorem exec_txTake :
    exec .txTake s = framerEvent s.block.framer.txBusy Framer.takeByte [.tx (s.block.framer.txWord wire)] s := rfl

theorem exec_cmdSleep : exec .cmdSleep s = framerEvent s.block.framer.cmdReady (fun _ => Framer.reset)
    (.cmdReq .sleep :: (frameWords wire .sleep).map .tx) s := by
  simp only [exec, execCmdSleep, wholeFrame, Framer.takeBytes_request]

theorem exec_cmdWake : exec .cmdWake s = framerEvent s.block.framer.cmdReady (fun _ => Framer.reset)
    (.cmdReq .wake :: (frameWords wire .wake).map .tx) s := by
  simp only [exec, execCmdWake, wholeFrame, Framer.takeBytes_request]

theorem exec_reset : exec .reset s = .next ({ s with block := Block.reset }.record [.reset]) := rfl

theorem exec_checksum (bytes : List Byte) :
    exec (.checksum bytes) s = .next (s.withCodec (.byte (checksum bytes))) := rfl

theorem exec_u16le (lo hi : Byte) : exec (.u16le lo hi) s = .next (s.withCodec (.half (u16le lo hi))) := rfl

theorem exec_cmdbyte (m : Mode) {i : BitVec 5} (h : i.toNat < 19) :
    exec (.cmdbyte m i) s = .next (s.withCodec (.byte (cmdByte wire m ⟨i.toNat, h⟩))) := by
  simp only [exec, execCmdbyte, dif_pos h, codecFunction]

theorem exec_build (m : Mode) : exec (.build m) s = .next (s.withCodec (.frame (build wire m))) := rfl

theorem exec_parse {f : Vector Byte 10} (h : f[0] = wire.head) :
    exec (.parse f) s = .next (s.withCodec (.parsed (classify wire f))) := by
  simp only [exec, execParse, parse_head h, Option.map_some, codecFunction]

theorem exec_tenths (r : Half) : exec (.tenths r) s = .next (s.withCodec (.tenths (tenths r))) := rfl

/-! ### Delivering bytes -/

/-- Delivery stops only at a closed port, and what is left is the end of what was to be delivered. -/
theorem Reader.deliver_split (k : WireConstants) (bs : List Byte) (r : Reader) :
    ∃ used, bs = used ++ (Reader.deliver k bs r).2 ∧
      ((Reader.deliver k bs r).2 = [] ∨ (Reader.deliver k bs r).1.rxReady = false) := by
  induction bs generalizing r with
  | nil => exact ⟨[], rfl, .inl rfl⟩
  | cons b bs ih =>
    unfold Reader.deliver
    split
    · obtain ⟨u, hu, hr⟩ := ih (r.rxByte k b)
      exact ⟨b :: u, congrArg (b :: ·) hu, hr⟩
    · exact ⟨[], rfl, .inr (by simp_all)⟩

/-- The bytes accepted are what was to be delivered less what is left. -/
theorem Reader.deliver_accepted (k : WireConstants) (bs : List Byte) (r : Reader) :
    bs.take (bs.length - (Reader.deliver k bs r).2.length) ++ (Reader.deliver k bs r).2 = bs := by
  obtain ⟨u, hu, -⟩ := Reader.deliver_split k bs r
  generalize (Reader.deliver k bs r).2 = x at hu ⊢
  subst hu
  simp

/-- Everything RSP.DATA can do. -/
theorem execRspData_next_iff {a b c d e f g : Byte} :
    execRspData a b c d e f g s = .next t ↔ s.block.reader.rxReady = true ∧ s.block.reader.wf wire = true ∧
      ∃ used rest, (responseFrame wire a b c d e f g).toList = used ++ rest ∧
        (Reader.deliver wire (used ++ rest) s.block.reader).2 = rest ∧
        t = ((s.withReader (Reader.deliver wire (used ++ rest) s.block.reader).1).record
          (used.map .rxByte)).withOffers (rxWords rest ++ s.offers) := by
  have hacc := Reader.deliver_accepted wire (responseFrame wire a b c d e f g).toList s.block.reader
  simp only [execRspData]
  generalize (responseFrame wire a b c d e f g).toList = bs at hacc ⊢
  constructor
  · intro h
    split at h
    · split at h
      · rename_i ho hw
        refine ⟨ho, hw, bs.take (bs.length - (Reader.deliver wire bs s.block.reader).2.length),
          (Reader.deliver wire bs s.block.reader).2, hacc.symm, ?_, ?_⟩
        · rw [hacc]
        · rw [hacc]
          cases h
          rfl
      · cases h
    · cases h
  · rintro ⟨ho, hw, used, rest, hb, hr, ht⟩
    subst hb
    have hu : (used ++ rest).take ((used ++ rest).length - (Reader.deliver wire (used ++ rest) s.block.reader).2.length)
        = used := by rw [hr]; simp
    rw [if_pos ho, if_pos hw, hu, ht, hr]

/-- Everything an operation can do when it has a next state, by the shared operation its meaning is written with. -/
theorem exec_cases {i : Instr} (h : exec i s = .next t) :
    (i = .reset ∧ t = { s with block := Block.reset }.record [.reset]) ∨
    (∃ e : RxEvent, i = e.instr ∧ s.block.reader.rxReady = true ∧ s.block.reader.wf wire = true ∧
      t = (s.withReader (s.block.reader.accept wire e)).record [e.item]) ∨
    (∃ a b c d e f g used rest, i = .rspData a b c d e f g ∧ s.block.reader.rxReady = true ∧
      s.block.reader.wf wire = true ∧ (responseFrame wire a b c d e f g).toList = used ++ rest ∧
      (Reader.deliver wire (used ++ rest) s.block.reader).2 = rest ∧
      t = ((s.withReader (Reader.deliver wire (used ++ rest) s.block.reader).1).record
        (used.map .rxByte)).withOffers (rxWords rest ++ s.offers)) ∨
    (i = .resTake ∧ s.block.reader.resValid = true ∧ s.block.reader.wf wire = true ∧
      t = (s.withReader s.block.reader.takeResult).record [.take s.block.reader.result]) ∨
    (∃ m, i = .cmdReq m ∧ s.block.framer.cmdReady = true ∧ s.block.framer.wf = true ∧
      t = (s.withFramer (s.block.framer.request m)).record [.cmdReq m]) ∨
    (i = .txTake ∧ s.block.framer.txBusy = true ∧ s.block.framer.wf = true ∧
      t = (s.withFramer s.block.framer.takeByte).record [.tx (s.block.framer.txWord wire)]) ∨
    (∃ m, (i = .cmdSleep ∧ m = .sleep ∨ i = .cmdWake ∧ m = .wake) ∧ s.block.framer.cmdReady = true ∧
      s.block.framer.wf = true ∧
      t = (s.withFramer Framer.reset).record (.cmdReq m :: (frameWords wire m).map .tx)) ∨
    (codecSide i = true ∧ ∃ v, t = s.withCodec v) := by
  cases i with
  | rspData a b c d e f g =>
    obtain ⟨h1, h2, used, rest, h3, h4, rfl⟩ := execRspData_next_iff.1 h
    exact .inr (.inr (.inl ⟨a, b, c, d, e, f, g, used, rest, rfl, h1, h2, h3, h4, rfl⟩))
  | reset => cases h; exact .inl ⟨rfl, rfl⟩
  | rxByte b =>
    obtain ⟨h1, h2, rfl⟩ := readerEvent_next_iff.1 h
    exact .inr (.inl ⟨.byte b, rfl, h1, h2, rfl⟩)
  | rxEof =>
    obtain ⟨h1, h2, rfl⟩ := readerEvent_next_iff.1 h
    exact .inr (.inl ⟨.eof, rfl, h1, h2, rfl⟩)
  | rxFail =>
    obtain ⟨h1, h2, rfl⟩ := readerEvent_next_iff.1 h
    exact .inr (.inl ⟨.fail, rfl, h1, h2, rfl⟩)
  | resTake =>
    obtain ⟨h1, h2, rfl⟩ := readerEvent_next_iff.1 h
    exact .inr (.inr (.inr (.inl ⟨rfl, h1, h2, rfl⟩)))
  | cmdReq m =>
    obtain ⟨h1, h2, rfl⟩ := framerEvent_next_iff.1 h
    exact .inr (.inr (.inr (.inr (.inl ⟨m, rfl, h1, h2, rfl⟩))))
  | txTake =>
    obtain ⟨h1, h2, rfl⟩ := framerEvent_next_iff.1 h
    exact .inr (.inr (.inr (.inr (.inr (.inl ⟨rfl, h1, h2, rfl⟩)))))
  | cmdSleep =>
    obtain ⟨h1, h2, rfl⟩ := wholeFrame_next_iff.1 h
    exact .inr (.inr (.inr (.inr (.inr (.inr (.inl ⟨.sleep, .inl ⟨rfl, rfl⟩, h1, h2, rfl⟩))))))
  | cmdWake =>
    obtain ⟨h1, h2, rfl⟩ := wholeFrame_next_iff.1 h
    exact .inr (.inr (.inr (.inr (.inr (.inr (.inl ⟨.wake, .inr ⟨rfl, rfl⟩, h1, h2, rfl⟩))))))
  | checksum => cases h; exact .inr (.inr (.inr (.inr (.inr (.inr (.inr ⟨rfl, _, rfl⟩))))))
  | u16le => cases h; exact .inr (.inr (.inr (.inr (.inr (.inr (.inr ⟨rfl, _, rfl⟩))))))
  | cmdbyte =>
    obtain ⟨x, -, rfl⟩ := codecFunction_next_iff.1 h
    exact .inr (.inr (.inr (.inr (.inr (.inr (.inr ⟨rfl, x, rfl⟩))))))
  | build => cases h; exact .inr (.inr (.inr (.inr (.inr (.inr (.inr ⟨rfl, _, rfl⟩))))))
  | parse =>
    obtain ⟨x, -, rfl⟩ := codecFunction_next_iff.1 h
    exact .inr (.inr (.inr (.inr (.inr (.inr (.inr ⟨rfl, x, rfl⟩))))))
  | tenths => cases h; exact .inr (.inr (.inr (.inr (.inr (.inr (.inr ⟨rfl, _, rfl⟩))))))

end Sys2Proof.Machine
end

