-- ==== Sys2Proof/Laws/Trace.lean ====
section
/-! SUPPORT. Traces: what one more event adds to the streams, and the replay of the events that a frame stands for. -/

namespace Sys2Proof.Machine

@[simp] theorem sinceReset_append_reset (items : List TraceItem) : sinceReset (items ++ [.reset]) = [] := by
  simp [sinceReset]

/-- Events other than RESET go to the end of the trace since RESET. -/
theorem sinceReset_append {items more : List TraceItem} (h : .reset ∉ more) :
    sinceReset (items ++ more) = sinceReset items ++ more := by
  have key : ∀ (more acc : List TraceItem), .reset ∉ more →
      more.foldl (fun acc e => if e = .reset then [] else acc ++ [e]) acc = acc ++ more := by
    intro more
    induction more with
    | nil => simp
    | cons e es ih =>
      intro acc h
      simp only [List.mem_cons, not_or] at h
      rw [List.foldl_cons, if_neg (Ne.symm h.1), ih _ h.2, List.append_assoc, List.singleton_append]
  rw [sinceReset, List.foldl_append]
  exact key more _ h

@[simp] theorem rxs_append (xs ys : List TraceItem) : rxs (xs ++ ys) = rxs xs ++ rxs ys := by simp [rxs]

@[simp] theorem txs_append (xs ys : List TraceItem) : txs (xs ++ ys) = txs xs ++ txs ys := by simp [txs]

@[simp] theorem requests_append (xs ys : List TraceItem) : requests (xs ++ ys) = requests xs ++ requests ys := by
  simp [requests]

@[simp] theorem rxs_map_rxByte (bs : List Byte) : rxs (bs.map .rxByte) = bs := by
  simp [rxs, List.filterMap_map]

@[simp] theorem txs_map_rxByte (bs : List Byte) : txs (bs.map .rxByte) = [] := by
  simp [txs, List.filterMap_map]

@[simp] theorem requests_map_rxByte (bs : List Byte) : requests (bs.map .rxByte) = [] := by
  simp [requests, List.filterMap_map]

@[simp] theorem rxs_map_tx (ws : List TxWord) : rxs (ws.map .tx) = [] := by
  simp [rxs, List.filterMap_map]

@[simp] theorem txs_map_tx (ws : List TxWord) : txs (ws.map .tx) = ws := by
  simp [txs, List.filterMap_map]

@[simp] theorem requests_map_tx (ws : List TxWord) : requests (ws.map .tx) = [] := by
  simp [requests, List.filterMap_map]

/-- The bytes delivered replay as RX.BYTE events one by one. -/
theorem replay_deliver (k : WireConstants) (f : Framer) (bs : List Byte) (r : Reader) :
    ((bs.take (bs.length - (Reader.deliver k bs r).2.length)).map TraceItem.rxByte).foldlM (TraceItem.apply k)
      (⟨r, f⟩ : Block) = some ⟨(Reader.deliver k bs r).1, f⟩ := by
  induction bs generalizing r with
  | nil => rfl
  | cons b bs ih =>
    unfold Reader.deliver
    split
    · rename_i ho
      have hl : (Reader.deliver k bs (r.rxByte k b)).2.length ≤ bs.length := by
        obtain ⟨u, hu, -⟩ := Reader.deliver_split k bs (r.rxByte k b)
        have := congrArg List.length hu
        simp at this
        omega
      rw [List.length_cons, Nat.succ_sub hl, List.take_succ_cons, List.map_cons, List.foldlM_cons]
      simp only [TraceItem.apply, ho, if_true, Option.bind_eq_bind, Option.bind_some]
      exact ih _
    · simp

/-- The takes that are left of a frame replay one by one and end idle. -/
theorem replay_remaining (k : WireConstants) (r : Reader) (n : Nat) {f : Framer} (hb : f.txBusy = true)
    (hn : f.txIdx.val + n = 19) :
    ((f.remaining k).map TraceItem.tx).foldlM (TraceItem.apply k) (⟨r, f⟩ : Block) = some ⟨r, Framer.reset⟩ := by
  induction n generalizing f with
  | zero => omega
  | succ n ih =>
    rw [Framer.remaining_takeByte hb, List.map_cons, List.foldlM_cons]
    simp only [TraceItem.apply, hb, true_and, if_true, Option.bind_eq_bind, Option.bind_some]
    by_cases h18 : f.txIdx.val < 18
    · exact ih (by simp [Framer.takeByte_lt h18, hb]) (by rw [Framer.takeByte_lt h18]; simp; omega)
    · rw [Framer.takeByte_last (by omega)]
      rfl

/-- A whole frame replays as its request and its nineteen takes. -/
theorem replay_wholeFrame (k : WireConstants) (r : Reader) (m : Mode) {f : Framer} (h : f.cmdReady = true) :
    (TraceItem.cmdReq m :: (frameWords k m).map .tx).foldlM (TraceItem.apply k) (⟨r, f⟩ : Block) =
      some ⟨r, Framer.reset⟩ := by
  have e : (f.request m).remaining k = frameWords k m := by simp [Framer.remaining]
  have hr := replay_remaining k r 19 (f := f.request m) rfl rfl
  rw [e] at hr
  generalize frameWords k m = ws at hr ⊢
  have e1 : TraceItem.apply k ⟨r, f⟩ (.cmdReq m) = some ⟨r, f.request m⟩ := by simp [TraceItem.apply, h]
  rw [List.foldlM_cons, e1, Option.bind_eq_bind, Option.bind_some]
  exact hr

end Sys2Proof.Machine
end

