-- ==== Sys2Proof/Laws/Agents.lean ====
section
/-! SUPPORT. What an operation of one agent depends on and changes: its own agent alone (10_state.md R13). -/

namespace Sys2Proof.Machine

variable {s t u : State}

theorem runEvents_cons_inv {i : Instr} {is : List Instr} (h : runEvents (i :: is) s = .next t) :
    ∃ u, exec i s = .next u ∧ runEvents is u = .next t := by
  unfold runEvents at h
  cases he : exec i s with
  | next u => rw [he] at h; exact ⟨u, rfl, h⟩
  | fault f => cases f
  | refused r => rw [he] at h; cases h

/-- An operation of the reader does the same wherever the reader is the same. -/
theorem exec_reader_local {i : Instr} {s' : State} (hi : readerSide i = true) (h : exec i s = .next t)
    (hs : s'.block.reader = s.block.reader) :
    ∃ items os, t = ((s.withReader t.block.reader).record items).withOffers (os ++ s.offers) ∧
      exec i s' = .next (((s'.withReader t.block.reader).record items).withOffers (os ++ s'.offers)) ∧
      .reset ∉ items ∧ txs items = [] := by
  rcases exec_cases h with ⟨rfl, rfl⟩ | ⟨e, rfl, h1, h2, rfl⟩ | ⟨a, b, c, d, e, f, g, used, rest, rfl, h1, h2, h3, h4, rfl⟩ |
    ⟨rfl, h1, h2, rfl⟩ | ⟨m, rfl, h1, h2, rfl⟩ | ⟨rfl, h1, h2, rfl⟩ | ⟨m, hi', h1, h2, rfl⟩ | ⟨hc, v, rfl⟩
  · cases hi
  · refine ⟨[e.item], [], rfl, ?_, by cases e <;> simp [RxEvent.item], by cases e <;> rfl⟩
    cases e <;> simp only [RxEvent.instr, exec_rxByte, exec_rxEof, exec_rxFail, hs] <;>
      exact (readerEvent_next h1 (hs ▸ h2)).trans (by rw [hs]; rfl)
  · refine ⟨used.map .rxByte, rxWords rest, rfl, ?_, by simp, by simp⟩
    exact execRspData_next_iff.2 ⟨hs ▸ h1, hs ▸ h2, used, rest, h3, hs ▸ h4, by rw [hs]; rfl⟩
  · exact ⟨_, [], rfl, readerEvent_next_iff.2 ⟨hs ▸ h1, hs ▸ h2, by rw [hs]; rfl⟩, by simp, rfl⟩
  · cases hi
  · cases hi
  · rcases hi' with ⟨rfl, _⟩ | ⟨rfl, _⟩ <;> contradiction
  · simp [codecSide, hi] at hc

/-- An operation of the framer does the same wherever the framer is the same. -/
theorem exec_framer_local {i : Instr} {s' : State} (hi : framerSide i = true) (h : exec i s = .next t)
    (hs : s'.block.framer = s.block.framer) :
    ∃ items, t = (s.withFramer t.block.framer).record items ∧
      exec i s' = .next ((s'.withFramer t.block.framer).record items) ∧
      .reset ∉ items ∧ rxs items = [] ∧ ∀ n l, taken n (items ++ l) = taken n l := by
  rcases exec_cases h with ⟨rfl, rfl⟩ | ⟨e, rfl, h1, h2, rfl⟩ | ⟨a, b, c, d, e, f, g, used, rest, rfl, h1, h2, h3, h4, rfl⟩ |
    ⟨rfl, h1, h2, rfl⟩ | ⟨m, rfl, h1, h2, rfl⟩ | ⟨rfl, h1, h2, rfl⟩ | ⟨m, hi', h1, h2, rfl⟩ | ⟨hc, v, rfl⟩
  · cases hi
  · cases e <;> cases hi
  · cases hi
  · cases hi
  · exact ⟨[.cmdReq m], rfl, framerEvent_next_iff.2 ⟨hs ▸ h1, hs ▸ h2, by rw [hs]; rfl⟩, by simp, rfl, fun _ _ => rfl⟩
  · exact ⟨_, rfl, framerEvent_next_iff.2 ⟨hs ▸ h1, hs ▸ h2, by rw [hs]; rfl⟩, by simp, rfl, fun _ _ => rfl⟩
  · refine ⟨.cmdReq m :: (frameWords wire m).map .tx, rfl, ?_, by simp, ?_, ?_⟩
    · rcases hi' with ⟨rfl, rfl⟩ | ⟨rfl, rfl⟩ <;> exact wholeFrame_next_iff.2 ⟨hs ▸ h1, hs ▸ h2, rfl⟩
    · have key : ∀ ws : List TxWord, rxs (.cmdReq m :: ws.map .tx) = [] := fun ws => rxs_map_tx ws
      exact key _
    · generalize frameWords wire m = ws
      intro n l
      simp only [List.cons_append, taken]
      induction ws with
      | nil => rfl
      | cons w ws ih => simpa [taken] using ih
  · simp [codecSide, hi] at hc

/-- What is neither of an agent nor RESET changes the codec's wires alone. -/
theorem exec_codec_local {i : Instr} (h1 : readerSide i = false) (h2 : framerSide i = false) (h3 : i ≠ .reset)
    (h : exec i s = .next t) : ∃ v, t = s.withCodec v := by
  rcases exec_cases h with ⟨rfl, rfl⟩ | ⟨e, rfl, _, _, rfl⟩ | ⟨a, b, c, d, e, f, g, used, rest, rfl, _, _, _, _, rfl⟩ |
    ⟨rfl, _, _, rfl⟩ | ⟨m, rfl, _, _, rfl⟩ | ⟨rfl, _, _, rfl⟩ | ⟨m, hi', _, _, rfl⟩ | ⟨hc, v, rfl⟩
  · exact absurd rfl h3
  · cases e <;> cases h1
  · cases h1
  · cases h1
  · cases h2
  · cases h2
  · rcases hi' with ⟨rfl, _⟩ | ⟨rfl, _⟩ <;> contradiction
  · exact ⟨v, rfl⟩

/-- Bytes delivered to the RX port are the RX.BYTE events of those accepted, run one by one. -/
theorem runEvents_deliver (bs : List Byte) (s : State) (hw : s.block.reader.wf wire = true) :
    ∃ used, bs = used ++ (Reader.deliver wire bs s.block.reader).2 ∧
      runEvents (used.map .rxByte) s =
        .next ((s.withReader (Reader.deliver wire bs s.block.reader).1).record (used.map .rxByte)) := by
  induction bs generalizing s with
  | nil => exact ⟨[], rfl, by simp [runEvents, Reader.deliver, State.record, State.withReader]⟩
  | cons b bs ih =>
    unfold Reader.deliver
    split
    · rename_i ho
      have hn : exec (.rxByte b) s = .next ((s.withReader (s.block.reader.rxByte wire b)).record [.rxByte b]) :=
        readerEvent_next ho hw
      obtain ⟨used, h1, h2⟩ := ih ((s.withReader (s.block.reader.rxByte wire b)).record [.rxByte b])
        (Reader.wf_rxByte b ho hw)
      refine ⟨b :: used, congrArg (b :: ·) h1, ?_⟩
      rw [List.map_cons, runEvents_cons_next hn, h2]
      simp [State.record, State.withReader]
    · exact ⟨[], rfl, by simp [runEvents, State.record, State.withReader]⟩

end Sys2Proof.Machine
end

