-- ==== Sys2Proof/Laws/Words.lean ====
section
/-! SUPPORT. Words as bytes and back: a port word is read from the bytes it was written as. -/

namespace Sys2Proof

@[simp] theorem length_leBytes (n v : Nat) : (leBytes n v).length = n := by
  induction n generalizing v with
  | zero => rfl
  | succ n ih => simp [leBytes, ih]

theorem leNat_leBytes (n v : Nat) : leNat (leBytes n v) = v % 256 ^ n := by
  induction n generalizing v with
  | zero => simp [leBytes, leNat, Nat.mod_one]
  | succ n ih =>
    simp only [leBytes, leNat, ih, BitVec.toNat_ofNat]
    rw [show (256 : Nat) ^ (n + 1) = 256 * 256 ^ n from Nat.pow_succ', Nat.mod_mul (x := v) (a := 256)]

theorem leNat_lt (bs : List Byte) : leNat bs < 256 ^ bs.length := by
  induction bs with
  | nil => simp [leNat]
  | cons b bs ih =>
    have := b.isLt
    simp only [leNat, List.length_cons, Nat.pow_succ']
    omega

/-- Bytes are determined by their number and their count. -/
theorem leBytes_leNat (bs : List Byte) : leBytes bs.length (leNat bs) = bs := by
  induction bs with
  | nil => rfl
  | cons b bs ih =>
    have h : (b.toNat + 256 * leNat bs) / 256 = leNat bs := by have := b.isLt; omega
    simp only [List.length_cons, leBytes, leNat, h, ih]
    congr 1
    apply BitVec.eq_of_toNat_eq
    have := b.isLt
    simp only [BitVec.toNat_ofNat]
    omega

/-- A port word is read back from its bytes. -/
theorem portWord_wordBytes {n : Nat} (w : BitVec n) :
    portWord n (leBytes (bytesFor n) w.toNat) = .ok w := by
  have hw := w.isLt
  have hp : 2 ^ n ≤ 256 ^ bytesFor n := by
    rw [show (256 : Nat) = 2 ^ 8 from rfl, ← Nat.pow_mul]
    exact Nat.pow_le_pow_right (by omega) (by unfold bytesFor; omega)
  have hv : leNat (leBytes (bytesFor n) w.toNat) = w.toNat := by
    rw [leNat_leBytes, Nat.mod_eq_of_lt (by omega)]
  have hn : ¬ 2 ^ n ≤ w.toNat := by omega
  simp [portWord, hv, hn]

/-- Bytes that are a port word are the bytes of that word. -/
theorem bytes_of_portWord {n : Nat} {bs : List Byte} {w : BitVec n} (h : portWord n bs = .ok w) :
    bs = leBytes (bytesFor n) w.toNat := by
  unfold portWord at h
  split at h
  · cases h
  · split at h
    · cases h
    · rename_i hl hb
      simp only [ne_eq, Decidable.not_not] at hl
      cases h
      rw [BitVec.toNat_ofNat, Nat.mod_eq_of_lt (by omega), ← hl, leBytes_leNat]

@[simp] theorem Mode.ofBit_bit (m : Mode) : Mode.ofBit m.bit = m := by cases m <;> rfl

theorem Mode.bit_ofBit (b : BitVec 1) : (Mode.ofBit b).bit = b := by
  revert b
  decide

end Sys2Proof
end

