-- ==== Sys2Proof/Laws/PerInstr.lean ====
section
/-! SUPPORT. One lemma per operation: the encoding stands on the operation's own channel and fills as many bytes as the
words of that channel have. -/

namespace Sys2Proof.Laws.ChannelWidth

/-- The channel of each operation (30_encoding.md R58, R66). -/
def channelOf : Instr → Channel
  | .rspData _ _ _ _ _ _ _ => .frameIn
  | .cmdSleep => .frameOut
  | .cmdWake => .frameOut
  | .reset => .rst
  | .rxByte _ => .rx
  | .rxEof => .rx
  | .rxFail => .rx
  | .resTake => .res
  | .cmdReq _ => .cmd
  | .txTake => .tx
  | .checksum _ => .checksum
  | .u16le _ _ => .u16le
  | .cmdbyte _ _ => .cmdbyte
  | .build _ => .build
  | .parse _ => .parse
  | .tenths _ => .tenths

/-- How many bytes the words of a channel fill; CHECKSUM takes a sequence of any length (40_codec.md R67). -/
def widthOf : Channel → Option Nat
  | .rst => some 1
  | .rx => some 2
  | .res => some 5
  | .cmd => some 1
  | .tx => some 2
  | .frameIn => some 10
  | .frameOut => some 19
  | .checksum => none
  | .u16le => some 2
  | .cmdbyte => some 1
  | .build => some 1
  | .parse => some 10
  | .tenths => some 2

/-- The encoding of an operation stands on its channel and has its channel's width. -/
def Statement (i : Instr) : Prop :=
  (encode i).channel = channelOf i ∧ ∀ n, widthOf (channelOf i) = some n → (encode i).bytes.length = n

theorem wordOffer_width {n : Nat} (c : Channel) (w : BitVec n) : (wordOffer c w).bytes.length = bytesFor n := by
  simp [wordOffer]

theorem rspData (a b c d e f g : Byte) : Statement (.rspData a b c d e f g) :=
  ⟨rfl, fun _ h => Option.some.inj h ▸ by simp [encode]⟩

theorem cmdSleep : Statement .cmdSleep := ⟨rfl, fun _ h => Option.some.inj h ▸ by simp [encode]⟩

theorem cmdWake : Statement .cmdWake := ⟨rfl, fun _ h => Option.some.inj h ▸ by simp [encode]⟩

theorem reset : Statement .reset := ⟨rfl, fun _ h => Option.some.inj h ▸ wordOffer_width _ _⟩

theorem rxByte (b : Byte) : Statement (.rxByte b) := ⟨rfl, fun _ h => Option.some.inj h ▸ wordOffer_width _ _⟩

theorem rxEof : Statement .rxEof := ⟨rfl, fun _ h => Option.some.inj h ▸ wordOffer_width _ _⟩

theorem rxFail : Statement .rxFail := ⟨rfl, fun _ h => Option.some.inj h ▸ wordOffer_width _ _⟩

theorem resTake : Statement .resTake := ⟨rfl, fun _ h => Option.some.inj h ▸ wordOffer_width _ _⟩

theorem cmdReq (m : Mode) : Statement (.cmdReq m) := ⟨rfl, fun _ h => Option.some.inj h ▸ wordOffer_width _ _⟩

theorem txTake : Statement .txTake := ⟨rfl, fun _ h => Option.some.inj h ▸ wordOffer_width _ _⟩

theorem checksum (s : List Byte) : Statement (.checksum s) := ⟨rfl, fun _ h => by cases h⟩

theorem u16le (lo hi : Byte) : Statement (.u16le lo hi) := ⟨rfl, fun _ h => Option.some.inj h ▸ wordOffer_width _ _⟩

theorem cmdbyte (m : Mode) (i : BitVec 5) : Statement (.cmdbyte m i) :=
  ⟨rfl, fun _ h => Option.some.inj h ▸ wordOffer_width _ _⟩

theorem build (m : Mode) : Statement (.build m) := ⟨rfl, fun _ h => Option.some.inj h ▸ wordOffer_width _ _⟩

theorem parse (f : Vector Byte 10) : Statement (.parse f) := ⟨rfl, fun _ h => Option.some.inj h ▸ by simp [encode]⟩

theorem tenths (r : Half) : Statement (.tenths r) := ⟨rfl, fun _ h => Option.some.inj h ▸ wordOffer_width _ _⟩

end Sys2Proof.Laws.ChannelWidth
end

