-- ==== Sys2Proof/Laws/Step.lean ====
section
/-! SUPPORT. What a word asks, and which offer a step deals with. -/

namespace Sys2Proof.Machine

variable {b : Block} {o : Offer} {os rest : List Offer}

/-- A word that decodes asks for its operation, and for nothing behind it. -/
theorem ask_of_decode {i : Instr} (h : decode o = .ok i) : ask o = .event i [] := by simp [ask, h]

/-- Inbound bytes that are no response frame ask for their RX.BYTE events. -/
theorem ask_frameIn {bytes : List Byte} {e : DecodeError} (h : decode ⟨.frameIn, bytes⟩ = .error e) :
    ask ⟨.frameIn, bytes⟩ = askBytes bytes := by simp [ask, h]

/-- On every other channel a word that does not decode asks for no event, or is no word. -/
theorem ask_of_error {e : DecodeError} (h : decode o = .error e) (hc : o.channel ≠ .frameIn) :
    ask o = if e = .resetLow then .noEvent else .noWord e := by simp [ask, h, hc]

/-- The events that words ask for: what they decode to, or RX.BYTE of inbound bytes. -/
theorem ask_event {i : Instr} {more : List Offer} (h : ask o = .event i more) :
    (decode o = .ok i ∧ more = []) ∨
    (o.channel = .frameIn ∧ ∃ b bs, o.bytes = b :: bs ∧ i = .rxByte b ∧ more = rxWords bs) := by
  unfold ask at h
  cases hd : decode o with
  | ok j => simp_all
  | error e =>
    simp only [hd] at h
    split at h
    · rename_i hc
      cases hb : o.bytes with
      | nil => simp [hb, askBytes] at h
      | cons b bs =>
        simp only [hb, askBytes, Ask.event.injEq] at h
        exact .inr ⟨hc, b, bs, rfl, h.1.symm, h.2.symm⟩
    · split at h <;> cases h

/-- An offer is held exactly when it asks for an event whose port is closed. -/
theorem ready_eq_false : ready b o = false ↔ ∃ j more, ask o = .event j more ∧ enabled j b = false := by
  unfold ready
  cases ask o <;> simp

theorem pick_first {pre post : List Offer} (h : ∀ x ∈ pre, ready b x = false) (ho : ready b o = true) :
    pick b (pre ++ o :: post) = some (o, pre ++ post) := by
  induction pre with
  | nil => simp [pick, ho]
  | cons x xs ih => simp [pick, h x (by simp), ih (fun y hy => h y (by simp [hy]))]

theorem pick_none (h : ∀ x ∈ os, ready b x = false) : pick b os = none := by
  induction os with
  | nil => rfl
  | cons x xs ih => simp [pick, h x (by simp), ih (fun y hy => h y (by simp [hy]))]

/-- Everything `pick` can answer: the first offer that is not held, and the others in their order. -/
theorem pick_some (h : pick b os = some (o, rest)) :
    ready b o = true ∧ ∃ pre post, os = pre ++ o :: post ∧ rest = pre ++ post ∧ ∀ x ∈ pre, ready b x = false := by
  induction os generalizing rest with
  | nil => cases h
  | cons x xs ih =>
    unfold pick at h
    split at h
    · rename_i hx
      cases h
      exact ⟨hx, [], xs, rfl, rfl, by simp⟩
    · rename_i hx
      rw [Option.map_eq_some_iff] at h
      obtain ⟨⟨o', r⟩, hp, he⟩ := h
      cases he
      obtain ⟨ho, pre, post, h1, h2, h3⟩ := ih hp
      exact ⟨ho, x :: pre, post, by simp [h1], by simp [h2], by simp_all⟩

theorem nextOffer_of_pick {p : Offer × List Offer} (h : pick b os = some p) : nextOffer b os = some p := by
  unfold nextOffer
  rw [h]

theorem nextOffer_of_held (h : pick b (o :: os) = none) : nextOffer b (o :: os) = some (o, os) := by
  unfold nextOffer
  rw [h]

/-- A step that has a next state is an operation run with other offers held out, or changes the offers alone. -/
theorem step_next {s t : State} (h : step s = .next t) :
    ∃ os, t = s.withOffers os ∨ ∃ i, exec i (s.withOffers os) = .next t := by
  unfold step at h
  split at h
  · cases h
  · split at h
    · exact ⟨_, .inr ⟨_, h⟩⟩
    · cases h
      exact ⟨_, .inl rfl⟩
    · cases h

end Sys2Proof.Machine
end

