-- ==== Sys2Proof/Laws/Stream.lean ====
section
/-! SUPPORT. The reader on a stream of bytes: a candidate as the list of its bytes, and `read_next()` over it
(42_stream_reader.md R98). -/

namespace Sys2Proof.Machine

/-- A buffer that begins with the given bytes and is 0x00 after them. -/
def padded (xs : List Byte) : Vector Byte 10 := Vector.ofFn fun i => xs.getD i.val 0

theorem getElem_padded (xs : List Byte) (i : Nat) (h : i < 10) : (padded xs)[i] = xs.getD i 0 := by simp [padded]

/-- A reader that collects the given candidate and has no result posted. -/
def candidate (xs : List Byte) (h : xs.length ≤ 9) : Reader :=
  { Reader.reset with rstate := .frame, cnt := ⟨xs.length, by omega⟩, buf := padded xs }

theorem memWrite1_padded (xs : List Byte) (h : xs.length ≤ 9) (b : Byte) :
    memWrite1 (padded xs) ⟨xs.length, by omega⟩ b = padded (xs ++ [b]) := by
  apply Vector.ext
  intro i hi
  simp only [memWrite1, Vector.getElem_set, getElem_padded]
  by_cases h1 : xs.length = i
  · subst h1; simp
  · rw [if_neg h1]
    by_cases h2 : i < xs.length
    · simp [List.getElem?_append_left h2]
    · have : xs.length + 1 ≤ i := by omega
      rw [List.getD_eq_getElem?_getD, List.getD_eq_getElem?_getD, List.getElem?_eq_none (l := xs) (by omega),
        List.getElem?_eq_none (l := xs ++ [b]) (i := i) (by simp; omega)]

theorem padded_toList (f : Vector Byte 10) : padded f.toList = f := by
  apply Vector.ext; intro i hi; simp [getElem_padded, hi]

/-- A byte before the tenth goes to the end of the candidate (42_stream_reader.md R85). -/
theorem candidate_byte {k : WireConstants} (xs : List Byte) (h : xs.length ≤ 8) (b : Byte) :
    (candidate xs (by omega)).accept k (.byte b) = candidate (xs ++ [b]) (by simp; omega) := by
  have := Reader.rxByte_collect (k := k) (b := b) (r := candidate xs (by omega)) rfl h
  refine this.trans ?_
  simp only [candidate, Reader.store]
  rw [← memWrite1_padded xs (by omega) b]
  congr 1
  simp

/-- The tenth byte completes the window (42_stream_reader.md R86). -/
theorem candidate_tenth {k : WireConstants} (xs : List Byte) (h : xs.length = 9) (b : Byte) :
    (candidate xs (by omega)).accept k (.byte b) = (candidate xs (by omega)).complete k b ∧
    window (candidate xs (by omega)).buf b = padded (xs ++ [b]) := by
  refine ⟨Reader.rxByte_tenth (r := candidate xs (by omega)) rfl h, ?_⟩
  rw [← memWrite1_padded xs (by omega) b]
  simp only [window, candidate]
  congr 1
  apply Fin.ext; simp [h]

/-- A head starts a candidate (42_stream_reader.md R84). -/
theorem reset_head {k : WireConstants} : Reader.reset.accept k (.byte k.head) = candidate [k.head] (by simp) := by
  simp only [Reader.accept, Reader.rxByte_seek_head (r := Reader.reset) (k := k) rfl rfl, Reader.store, candidate]
  have := memWrite1_padded [] (by simp) k.head
  have h0 : padded [] = Reader.reset.buf := by
    apply Vector.ext; intro i hi; simp [getElem_padded, Reader.reset]
  rw [h0] at this
  simp only [List.nil_append] at this
  rw [← this]; rfl

theorem reset_noise {k : WireConstants} {b : Byte} (hb : b ≠ k.head) :
    Reader.reset.accept k (.byte b) = Reader.reset :=
  Reader.rxByte_seek_other (r := Reader.reset) rfl hb

theorem candidate_ready (xs : List Byte) (h : xs.length ≤ 9) : (candidate xs h).rxReady = true := rfl

theorem reset_ready : Reader.reset.rxReady = true := rfl

/-- Bytes up to the ninth are only collected (42_stream_reader.md R85). -/
theorem readNext_collect {k : WireConstants} (xs ys : List Byte) (es : List RxEvent) (h : xs.length + ys.length ≤ 9)
    (hx : 1 ≤ xs.length) : (candidate xs (by omega)).readNext k (byteEvents ys ++ es) =
      (candidate (xs ++ ys) (by simp; omega)).readNext k es := by
  induction ys generalizing xs with
  | nil => simp [byteEvents]
  | cons y ys ih =>
    simp only [List.length_cons] at h
    simp only [byteEvents, List.map_cons, List.cons_append, Reader.readNext]
    rw [if_neg (by simp [candidate, Reader.reset]), if_pos (candidate_ready _ _), candidate_byte xs (by omega) y]
    rw [show List.map RxEvent.byte ys = byteEvents ys from rfl, ih (xs ++ [y]) (by simp; omega) (by simp)]
    simp

/-- A result that is posted is returned at once. -/
theorem readNext_valid {k : WireConstants} {r : Reader} (h : r.resValid = true) (es : List RxEvent) :
    r.readNext k es = some (r.result, es, r.takeResult) := by
  cases es <;> simp [Reader.readNext, h]

/-- The bytes that fill a candidate up to ten end the call with the outcome of the tenth (42_stream_reader.md R86). -/
theorem readNext_window {k : WireConstants} (xs ys : List Byte) (es : List RxEvent) (h : xs.length + ys.length = 10)
    (hx : 1 ≤ xs.length) (hy : 1 ≤ ys.length) :
    ∃ c b, ∃ hc : c.length = 9, c ++ [b] = xs ++ ys ∧
      (candidate xs (by omega)).readNext k (byteEvents ys ++ es) =
        some (((candidate c (by omega)).complete k b).result, es, ((candidate c (by omega)).complete k b).takeResult) ∧
      window (candidate c (by omega)).buf b = padded (xs ++ ys) := by
  obtain ⟨ys, y, rfl⟩ : ∃ ys' y, ys = ys' ++ [y] := by
    have : ys ≠ [] := by rintro rfl; simp at hy
    exact ⟨ys.dropLast, ys.getLast this, (List.dropLast_append_getLast this).symm⟩
  simp only [List.length_append, List.length_cons, List.length_nil] at h
  refine ⟨xs ++ ys, y, by simp; omega, by simp, ?_, ?_⟩
  · simp only [byteEvents, List.map_append, List.append_assoc]
    rw [show List.map RxEvent.byte ys = byteEvents ys from rfl, readNext_collect xs ys _ (by omega) hx]
    simp only [List.map_cons, List.map_nil, List.cons_append, List.nil_append, Reader.readNext]
    rw [if_neg (by simp [candidate, Reader.reset]), if_pos (candidate_ready _ _),
      (candidate_tenth (xs ++ ys) (by simp; omega) y).1]
    exact readNext_valid (Reader.complete_resValid ..) _
  · rw [(candidate_tenth (k := k) (xs ++ ys) (by simp; omega) y).2]; simp

theorem complete_reading {k : WireConstants} {r : Reader} {b : Byte} {p q : Half}
    (h : classify k (window r.buf b) = .reading p q) :
    (r.complete k b).result = ⟨.reading, p, q⟩ ∧ (r.complete k b).takeResult = Reader.reset := by
  simp only [Reader.complete, h]
  exact ⟨rfl, rfl⟩

/-- Noise is dropped (42_stream_reader.md R84). -/
theorem readNext_noise {k : WireConstants} (ns : List Byte) (hn : ∀ b ∈ ns, b ≠ k.head) (es : List RxEvent) :
    Reader.reset.readNext k (byteEvents ns ++ es) = Reader.reset.readNext k es := by
  induction ns with
  | nil => rfl
  | cons n ns ih =>
    simp only [byteEvents, List.map_cons, List.cons_append, Reader.readNext]
    rw [if_neg (by simp [Reader.reset]), if_pos reset_ready, reset_noise (hn n (by simp))]
    exact ih fun b hb => hn b (by simp [hb])

theorem readNext_head {k : WireConstants} (es : List RxEvent) :
    Reader.reset.readNext k (.byte k.head :: es) = (candidate [k.head] (by simp)).readNext k es := by
  rw [Reader.readNext, if_neg (by simp [Reader.reset]), if_pos reset_ready, reset_head]

/-- A window that begins with a head ends the call with the outcome of its tenth byte. -/
theorem readNext_frame {k : WireConstants} (f : Vector Byte 10) (h0 : f[0] = k.head) (es : List RxEvent) :
    ∃ (r : Reader) (b : Byte), r.resValid = false ∧ window r.buf b = f ∧
      Reader.reset.readNext k (byteEvents f.toList ++ es) =
        some ((r.complete k b).result, es, (r.complete k b).takeResult) := by
  obtain ⟨ys, hy⟩ : ∃ ys, f.toList = k.head :: ys := by
    refine ⟨f.toList.tail, ?_⟩
    apply List.ext_getElem (by simp)
    intro i h1 h2
    cases i with
    | zero => simpa using h0
    | succ n => simp
  have hl : ys.length = 9 := by
    have := congrArg List.length hy; simpa using this.symm
  obtain ⟨c, b, hc, hcb, hr, hw⟩ := readNext_window (k := k) [k.head] ys es (by simp; omega) (by simp) (by omega)
  refine ⟨candidate c (by omega), b, rfl, ?_, ?_⟩
  · rw [hw, List.singleton_append, ← hy, padded_toList]
  · rw [hy, byteEvents, List.map_cons, List.cons_append, readNext_head]
    exact hr

/-- Calls that each consume the same bytes and give the same result. -/
theorem readMany_repeat {k : WireConstants} (w : List Byte) (x : Result)
    (h : ∀ es, Reader.reset.readNext k (byteEvents w ++ es) = some (x, es, Reader.reset)) (n : Nat) (es : List RxEvent) :
    Reader.reset.readMany k n (byteEvents (List.replicate n w).flatten ++ es) =
      some (List.replicate n x, es, Reader.reset) := by
  induction n with
  | zero => rfl
  | succ n ih =>
    simp only [Reader.readMany, List.replicate_succ, List.flatten_cons, byteEvents, List.map_append, List.append_assoc]
    simp only [byteEvents] at h ih
    rw [h]
    simp only [ih]

end Sys2Proof.Machine
end

