-- ==== Sys2Proof/Tests/Slice0.lean ====
section
/-! SUPPORT. Tests of the model against the vectors of 95_test_vectors.md and the encodings of 30_encoding.md, and for every
statement with hypotheses a state and operands that meet them. Expected values are the spec's. -/

namespace Sys2Proof.Tests

open Sys2Proof Sys2Proof.Machine

/-- The reader state `(RSTATE, CNT, [valid bytes of BUF], result)` of 95_test_vectors.md, with no result. -/
def reader (st : RState) (bs : List Byte) : Reader :=
  { Reader.reset with rstate := st, cnt := Fin.ofNat 10 bs.length, buf := Vector.ofFn fun i => bs.getD i.val 0 }

/-- The same with a result. -/
def posted (st : RState) (bs : List Byte) (kind : ResKind) (pm25 pm10 : Half) : Reader :=
  { reader st bs with resValid := true, resKind := kind, resPm25 := pm25, resPm10 := pm10 }

/-- The framer state `(TX_BUSY, TX_MODE, TX_IDX)`, busy. -/
def busy (m : Mode) (i : Fin 19) : Framer := ⟨true, m, i⟩

/-- A machine with the given block, and nothing around it. -/
def machine (r : Reader) (f : Framer) : State := ⟨⟨r, f⟩, [], [], none⟩

/-- The next state, where there is one. -/
def after : Host.Outcome State Fault Refusal → Option State
  | .next s => some s
  | .fault _ => none
  | .refused _ => none

/-- What the witnesses below say by `after … |>.isSome`. -/
theorem after_isSome (o : Host.Outcome State Fault Refusal) : (after o).isSome = true ↔ ∃ t, o = .next t := by
  cases o <;> simp [after]

/-- The refusal, where there is one. -/
def refusal : Host.Outcome State Fault Refusal → Option Refusal
  | .next _ => none
  | .fault _ => none
  | .refused r => some r

def readerAfter (i : Instr) (r : Reader) : Option Reader := (after (exec i (machine r Framer.reset))).map (·.block.reader)

def framerAfter (i : Instr) (f : Framer) : Option Framer := (after (exec i (machine Reader.reset f))).map (·.block.framer)

def codecAfter (i : Instr) : Option CodecValue := (after (exec i State.reset)).bind (·.codec)

/-- The source's example frame (95_test_vectors.md, `ex`), and its first nine bytes. -/
def ex : Vector Byte 10 := #v[0xAA, 0xC0, 0x28, 0x00, 0x3C, 0x00, 0x00, 0x00, 0x64, 0xAB]

def ex9 : List Byte := [0xAA, 0xC0, 0x28, 0x00, 0x3C, 0x00, 0x00, 0x00, 0x64]

/-! ### Well-formedness: an ill-formed term for each check, refused -/

theorem test_wellFormed_refuses_a_wrong_frame_checksum :
    WellFormed (.rspData 0x28 0x00 0x3C 0x00 0x00 0x00 0x65) = false := by decide

theorem test_wellFormed_refuses_offset_19 : WellFormed (.cmdbyte .wake 19) = false := by decide

theorem test_wellFormed_refuses_a_window_without_head :
    WellFormed (.parse #v[0x00, 0xC0, 0x28, 0x00, 0x3C, 0x00, 0x00, 0x00, 0x64, 0xAB]) = false := by decide

theorem test_wellFormed_accepts_the_bounds :
    WellFormed (.rspData 0x28 0x00 0x3C 0x00 0x00 0x00 0x64) = true ∧ WellFormed (.cmdbyte .wake 18) = true ∧
    WellFormed (.parse ex) = true := by decide

/-! ### Decoding: a word written out from 30_encoding.md for every operation -/

theorem test_decode_rspData : decode ⟨.frameIn, ex.toList⟩ = .ok (.rspData 0x28 0x00 0x3C 0x00 0x00 0x00 0x64) := by decide

theorem test_decode_cmdSleep :
    decode ⟨.frameOut, [0xAA, 0xB4, 0x06, 0x01, 0x00, 0, 0, 0, 0, 0, 0, 0, 0, 0, 0, 0xFF, 0xFF, 0x05, 0xAB]⟩ =
      .ok .cmdSleep := by decide

theorem test_decode_cmdWake :
    decode ⟨.frameOut, [0xAA, 0xB4, 0x06, 0x01, 0x01, 0, 0, 0, 0, 0, 0, 0, 0, 0, 0, 0xFF, 0xFF, 0x06, 0xAB]⟩ =
      .ok .cmdWake := by decide

theorem test_decode_reset : decode ⟨.rst, [0b1]⟩ = .ok .reset := by decide

theorem test_decode_rxByte : decode ⟨.rx, [0b10101010, 0b00]⟩ = .ok (.rxByte 0xAA) := by decide

theorem test_decode_rxEof : decode ⟨.rx, [0b11111111, 0b01]⟩ = .ok .rxEof := by decide

theorem test_decode_rxFail :
    decode ⟨.rx, [0b00000000, 0b10]⟩ = .ok .rxFail ∧ decode ⟨.rx, [0b00000000, 0b11]⟩ = .ok .rxFail := by decide

/-- The RES word of READING(40, 60), `1 0028 003C`. -/
theorem test_decode_resTake : decode ⟨.res, [0x3C, 0x00, 0x28, 0x00, 0x01]⟩ = .ok .resTake := by decide

theorem test_decode_cmdReq :
    decode ⟨.cmd, [0b0]⟩ = .ok (.cmdReq .sleep) ∧ decode ⟨.cmd, [0b1]⟩ = .ok (.cmdReq .wake) := by decide

theorem test_decode_txTake : decode ⟨.tx, [0b10101011, 0b1]⟩ = .ok .txTake := by decide

theorem test_decode_checksum : decode ⟨.checksum, [0xFF, 0x01]⟩ = .ok (.checksum [0xFF, 0x01]) := by decide

theorem test_decode_u16le : decode ⟨.u16le, [0x28, 0x01]⟩ = .ok (.u16le 0x28 0x01) := by decide

/-- The ROM address `m, i[4:0]` with m = 1 and i = 17. -/
theorem test_decode_cmdbyte : decode ⟨.cmdbyte, [0b110001]⟩ = .ok (.cmdbyte .wake 17) := by decide

theorem test_decode_build : decode ⟨.build, [0b1]⟩ = .ok (.build .wake) := by decide

theorem test_decode_parse : decode ⟨.parse, ex.toList⟩ = .ok (.parse ex) := by decide

theorem test_decode_tenths : decode ⟨.tenths, [0xD4, 0x04]⟩ = .ok (.tenths 1236) := by decide

/-! ### Decoding: what is no operation is rejected by name -/

theorem test_decode_rejects_stray_bits :
    decode ⟨.rx, [0x00, 0b100]⟩ = .error .strayBits ∧ decode ⟨.cmd, [0b10]⟩ = .error .strayBits := by decide

theorem test_decode_rejects_lengths :
    decode ⟨.rx, [0x00]⟩ = .error .wrongLength ∧ decode ⟨.frameIn, ex9⟩ = .error .wrongLength ∧
    decode ⟨.parse, ex9⟩ = .error .wrongLength ∧ decode ⟨.frameOut, ex9⟩ = .error .wrongLength := by decide

theorem test_decode_rejects_operands :
    decode ⟨.rst, [0b0]⟩ = .error .resetLow ∧ decode ⟨.cmdbyte, [0b010011]⟩ = .error .offsetOutsideDomain := by decide

theorem test_decode_rejects_frames :
    decode ⟨.frameIn, ex9 ++ [0xAA]⟩ = .error .notResponseFrame ∧
    decode ⟨.frameIn, [0xAA, 0xC0, 0x28, 0x00, 0x3C, 0x00, 0x00, 0x00, 0x65, 0xAB]⟩ = .error .frameChecksum ∧
    decode ⟨.frameOut, [0xAA, 0xB4, 0x06, 0x01, 0x01, 0, 0, 0, 0, 0, 0, 0, 0, 0, 0, 0xFF, 0xFF, 0x05, 0xAB]⟩ =
      .error .notCommandFrame ∧
    decode ⟨.parse, [0xAB, 0xC0, 0x28, 0x00, 0x3C, 0x00, 0x00, 0x00, 0x64, 0xAB]⟩ = .error .windowWithoutHead := by decide

/-! ### Encoding, and the table's words -/

theorem test_encode_words :
    encode (.rxByte 0xAB) = ⟨.rx, [0xAB, 0x00]⟩ ∧ encode .rxEof = ⟨.rx, [0x00, 0x01]⟩ ∧
    encode .rxFail = ⟨.rx, [0x00, 0x02]⟩ ∧ encode (.cmdReq .wake) = ⟨.cmd, [0x01]⟩ ∧ encode .reset = ⟨.rst, [0x01]⟩ := by decide

theorem test_encode_frames :
    encode (.rspData 0x28 0x00 0x3C 0x00 0x00 0x00 0x64) = ⟨.frameIn, ex.toList⟩ ∧
    encode .cmdWake =
      ⟨.frameOut, [0xAA, 0xB4, 0x06, 0x01, 0x01, 0, 0, 0, 0, 0, 0, 0, 0, 0, 0, 0xFF, 0xFF, 0x06, 0xAB]⟩ := by decide

theorem test_encode_functions :
    encode (.u16le 0x28 0x01) = ⟨.u16le, [0x28, 0x01]⟩ ∧ encode (.cmdbyte .wake 17) = ⟨.cmdbyte, [0b110001]⟩ ∧
    encode (.tenths 1236) = ⟨.tenths, [0xD4, 0x04]⟩ := by decide

theorem test_table_words_of_ports :
    decodeTableWord 8 1 = some .reset ∧ decodeTableWord 8 0 = some (.cmdReq .sleep) ∧
    decodeTableWord 16 0x0AA = some (.rxByte 0xAA) ∧ decodeTableWord 16 0x100 = some .rxEof ∧
    decodeTableWord 16 0x200 = some .rxFail ∧ decodeTableWord 16 0xC0AA = some (.u16le 0xAA 0xC0) ∧
    decodeTableWord 40 0x10028003C = some .resTake := by decide

/-- Both byte orders of the frames of the table: offset 0 in bits 7..0, and offset 0 first in the row's `match`. -/
theorem test_table_words_of_inbound_frames :
    decodeTableWord 80 0xAB640000003C0028C0AA = some (.rspData 0x28 0x00 0x3C 0x00 0x00 0x00 0x64) ∧
    decodeTableWord 80 0xAAC028003C00000064AB = some (.rspData 0x28 0x00 0x3C 0x00 0x00 0x00 0x64) ∧
    decodeTableWord 80 0xAAC028003C00000065AB =
      some (.parse #v[0xAA, 0xC0, 0x28, 0x00, 0x3C, 0x00, 0x00, 0x00, 0x65, 0xAB]) := by decide

theorem test_table_words_of_outbound_frames :
    decodeTableWord 152 0xAAB406010000000000000000000000FFFF05AB = some .cmdSleep ∧
    decodeTableWord 152 0xAB06FFFF00000000000000000000010106B4AA = some .cmdWake ∧
    decodeTableWord 152 0xAAB406010100000000000000000000FFFF05AB = none := by decide

/-! ### One step of each operation -/

/-- V9 row 1 in one operation, with a nonzero device id (V4 row 12). -/
theorem test_rspData_from_seek :
    readerAfter (.rspData 0xD4 0x04 0x3A 0x0A 0xA1 0x60 0x1D) Reader.reset = some (posted .seek [] .reading 1236 2618) := by
  decide

/-- The window `AA C0 28 AA C0 D4 04 3A 0A A1` fails on checksum, and the last three bytes of the frame stay held out. -/
theorem test_rspData_in_mid_candidate :
    (after (exec (.rspData 0xD4 0x04 0x3A 0x0A 0xA1 0x60 0x1D)
      (machine (reader .frame [0xAA, 0xC0, 0x28]) Framer.reset))).map (fun t => (t.block.reader, t.offers)) =
      some (posted .seek [] .checksumMismatch 0 0,
        [⟨.rx, [0x60, 0x00]⟩, ⟨.rx, [0x1D, 0x00]⟩, ⟨.rx, [0xAB, 0x00]⟩]) := by decide

/-- V6. -/
theorem test_cmdSleep_emits_its_bytes :
    ((after (exec .cmdSleep State.reset)).map fun t => (txs t.trace).map TxWord.data) =
      some [0xAA, 0xB4, 0x06, 0x01, 0x00, 0, 0, 0, 0, 0, 0, 0, 0, 0, 0, 0xFF, 0xFF, 0x05, 0xAB] := by decide

/-- V7. -/
theorem test_cmdWake_emits_its_bytes :
    ((after (exec .cmdWake State.reset)).map fun t => (txs t.trace).map TxWord.data) =
      some [0xAA, 0xB4, 0x06, 0x01, 0x01, 0, 0, 0, 0, 0, 0, 0, 0, 0, 0, 0xFF, 0xFF, 0x06, 0xAB] := by decide

/-- V17 row 1. -/
theorem test_reset_in_mid_frame :
    (after (exec .reset (machine (reader .frame ex9) (busy .wake 7)))).map (·.block) = some Block.reset := by decide

/-- V10: a tail value and a head value inside a candidate are data. -/
theorem test_rxByte_collects :
    readerAfter (.rxByte 0xAB) (reader .frame [0xAA]) = some (reader .frame [0xAA, 0xAB]) ∧
    readerAfter (.rxByte 0xAA) (reader .frame [0xAA, 0xC0]) = some (reader .frame [0xAA, 0xC0, 0xAA]) := by decide

/-- V11, V12 (k = 1, 9, none, first of several). -/
theorem test_rxByte_tenth :
    readerAfter (.rxByte 0xAB) (reader .frame ex9) = some (posted .seek [] .reading 40 60) ∧
    readerAfter (.rxByte 0xAA) (reader .frame ex9) = some (posted .seek [] .badTail 0 0) ∧
    readerAfter (.rxByte 0x00) (reader .frame [0xAA, 0xC0, 0x28, 0x00, 0x3C, 0x00, 0x00, 0x00, 0x65]) =
      some (posted .seek [] .checksumMismatch 0 0) ∧
    readerAfter (.rxByte 0x09) (reader .frame [0xAA, 0xAA, 0x02, 0x03, 0x04, 0x05, 0x06, 0x07, 0x08]) =
      some (posted .frame [0xAA, 0x02, 0x03, 0x04, 0x05, 0x06, 0x07, 0x08, 0x09] .unexpectedCommandId 0 0) ∧
    readerAfter (.rxByte 0xAA) (reader .frame [0xAA, 0x01, 0x02, 0x03, 0x04, 0x05, 0x06, 0x07, 0x08]) =
      some (posted .frame [0xAA] .unexpectedCommandId 0 0) ∧
    readerAfter (.rxByte 0x09) (reader .frame [0xAA, 0x01, 0x02, 0x03, 0x04, 0x05, 0x06, 0x07, 0x08]) =
      some (posted .seek [] .unexpectedCommandId 0 0) ∧
    readerAfter (.rxByte 0xAA) (reader .frame [0xAA, 0x01, 0xAA, 0x03, 0xAA, 0x05, 0x06, 0x07, 0x08]) =
      some (posted .frame [0xAA, 0x03, 0xAA, 0x05, 0x06, 0x07, 0x08, 0xAA] .unexpectedCommandId 0 0) := by decide

/-- V14 row 2. -/
theorem test_rxEof : readerAfter .rxEof (reader .frame [0xAA, 0xC0, 0x28]) = some (posted .closed [] .eof 0 0) := by decide

/-- V14 row 3; V19: not accepted while a result is posted. -/
theorem test_rxFail :
    readerAfter .rxFail (reader .frame [0xAA, 0xC0, 0x28, 0x00]) = some (posted .closed [] .ioFailure 0 0) ∧
    refusal (exec .rxFail (machine (posted .seek [] .reading 40 60) Framer.reset)) = some .notEnabled := by decide

/-- PROG2 step 12. -/
theorem test_resTake_leaves_the_candidate :
    readerAfter .resTake (posted .frame [0xAA, 0xC0, 0x28, 0x00, 0x3C, 0x00, 0x00, 0x00] .unexpectedCommandId 0 0) =
      some (reader .frame [0xAA, 0xC0, 0x28, 0x00, 0x3C, 0x00, 0x00, 0x00]) := by decide

/-- V14 row 2: a terminal result is handed over and stays. -/
theorem test_resTake_in_closed :
    ((after (exec .resTake (machine (posted .closed [] .eof 0 0) Framer.reset))).map fun t => (t.block.reader, t.trace)) =
      some (posted .closed [] .eof 0 0, [.take ⟨.eof, 0, 0⟩]) := by decide

/-- V15 rows 1, 2. -/
theorem test_cmdReq :
    framerAfter (.cmdReq .wake) Framer.reset = some (busy .wake 0) ∧
    framerAfter (.cmdReq .sleep) Framer.reset = some (busy .sleep 0) ∧
    refusal (exec (.cmdReq .wake) (machine Reader.reset (busy .sleep 3))) = some .notEnabled := by decide

/-- V15 rows 5, 10. -/
theorem test_txTake :
    framerAfter .txTake (busy .sleep 3) = some (busy .sleep 4) ∧ framerAfter .txTake (busy .wake 18) = some Framer.reset := by
  decide

/-- V15: what is handed over. -/
theorem test_txTake_hands_over :
    ((after (exec .txTake (machine Reader.reset (busy .wake 17)))).map (·.trace)) = some [.tx ⟨false, 0x06⟩] ∧
    ((after (exec .txTake (machine Reader.reset (busy .wake 18)))).map (·.trace)) = some [.tx ⟨true, 0xAB⟩] := by decide

/-- V1 rows 2, 4, 6, 8. -/
theorem test_checksum :
    codecAfter (.checksum []) = some (.byte 0x00) ∧ codecAfter (.checksum [0xFF, 0x01]) = some (.byte 0x00) ∧
    codecAfter (.checksum [0xFF, 0xFF, 0xFF, 0xFF, 0xFF, 0xFF]) = some (.byte 0xFA) ∧
    codecAfter (.checksum [0xD4, 0x04, 0x3A, 0x0A, 0xA1, 0x60]) = some (.byte 0x1D) := by decide

/-- V2. -/
theorem test_u16le :
    codecAfter (.u16le 0x00 0x01) = some (.half 256) ∧ codecAfter (.u16le 0x00 0x80) = some (.half 32768) := by decide

/-- V8. -/
theorem test_cmdbyte :
    codecAfter (.cmdbyte .wake 4) = some (.byte 0x01) ∧ codecAfter (.cmdbyte .sleep 17) = some (.byte 0x05) ∧
    codecAfter (.cmdbyte .wake 17) = some (.byte 0x06) ∧ codecAfter (.cmdbyte .wake 18) = some (.byte 0xAB) ∧
    refusal (exec (.cmdbyte .wake 19) State.reset) = some .outsideDomain := by decide

/-- V6. -/
theorem test_build :
    codecAfter (.build .sleep) = some (.frame
      #v[0xAA, 0xB4, 0x06, 0x01, 0x00, 0, 0, 0, 0, 0, 0, 0, 0, 0, 0, 0xFF, 0xFF, 0x05, 0xAB]) := by decide

/-- V4 rows 1, 8, 9, 16. -/
theorem test_parse :
    codecAfter (.parse ex) = some (.parsed (.reading 40 60)) ∧
    codecAfter (.parse #v[0xAA, 0xC0, 0x28, 0x00, 0x3C, 0x00, 0x00, 0x00, 0x65, 0x00]) = some (.parsed .checksumMismatch) ∧
    codecAfter (.parse #v[0xAA, 0xC5, 0x28, 0x00, 0x3C, 0x00, 0x00, 0x00, 0x65, 0x00]) = some (.parsed .unexpectedCommandId) ∧
    codecAfter (.parse #v[0xAA, 0xC0, 0x00, 0x01, 0x01, 0x00, 0x00, 0x00, 0x02, 0xAB]) = some (.parsed (.reading 256 1)) := by
  decide

/-- V5. -/
theorem test_tenths :
    codecAfter (.tenths 1236) = some (.tenths ⟨123, 6⟩) ∧ codecAfter (.tenths 65535) = some (.tenths ⟨6553, 5⟩) := by decide

/-! ### The step -/

/-- An RX byte is held while a result is posted, and the take behind it happens (V19). -/
theorem test_step_takes_the_first_open_offer :
    ((after (step ((machine (posted .seek [] .reading 40 60) Framer.reset).withOffers
      [encode (.rxByte 0x00), encode .resTake]))).map fun t => (t.block.reader, t.offers)) =
      some (Reader.reset, [encode (.rxByte 0x00)]) := by decide

theorem test_step_runs_a_table_word :
    ((after (step (State.reset.withFetchWord 16 0x0AA))).map fun t => (t.block.reader, t.offers)) =
      some (reader .frame [0xAA], []) := by decide

/-- A frame with a wrong checksum byte on the inbound wire is its bytes (30_encoding.md R62, R65): the head is kept, and the
other nine are held out. -/
theorem test_step_runs_a_corrupt_frame_as_bytes :
    ((after (step (State.reset.withOffers
      [⟨.frameIn, [0xAA, 0xC0, 0x28, 0x00, 0x3C, 0x00, 0x00, 0x00, 0x65, 0xAB]⟩]))).map fun t =>
        (t.block.reader, t.offers.length, t.offers.head?)) =
      some (reader .frame [0xAA], 9, some ⟨.rx, [0xC0, 0x00]⟩) := by decide

/-- `rst` = 0 is no event (10_state.md R26). -/
theorem test_step_passes_rst_low_by :
    ((after (step ((machine (reader .frame ex9) (busy .wake 7)).withOffers [⟨.rst, [0x00]⟩]))).map fun t => (t.block, t.offers)) =
      some (⟨reader .frame ex9, busy .wake 7⟩, []) := by decide

theorem test_step_rejects_stray_bits :
    refusal (step (State.reset.withOffers [⟨.cmd, [0b10]⟩])) = some (.undecodable .strayBits) := by decide

/-- PROG3 steps 23 and 24 at one edge. -/
theorem test_clock_edge_with_both_agents :
    ((after (clockEdge ⟨false, true, 0, 0x3A, true, true, 1, true⟩
      (machine (reader .frame [0xAA, 0xC0, 0xD4, 0x04]) (busy .wake 16)))).map (·.block)) =
      some ⟨reader .frame [0xAA, 0xC0, 0xD4, 0x04, 0x3A], busy .wake 17⟩ := by decide

/-! ### Witnesses: states and operands that meet each statement's hypotheses, clause by clause -/

/-- A reader that collects, at the two ends of CNT, with the framer idle. -/
def collecting (bs : List Byte) : State := machine (reader .frame bs) Framer.reset

/-- The machine with a result waiting, open and closed. -/
def waiting : State := machine (posted .frame [0xAA] .unexpectedCommandId 0 0) Framer.reset

def closed : State := machine (posted .closed [] .eof 0 0) Framer.reset

/-- What the statements on RX events ask of a state. -/
def openReader (s : State) (st : RState) : Bool :=
  s.block.reader.wf wire && s.block.reader.rstate == st && !s.block.reader.resValid

/-- The state of a tenth byte, with the window it completes. -/
def tenth (s : State) (b : Byte) (w : Vector Byte 10) : Prop :=
  openReader s .frame = true ∧ s.block.reader.cnt = 9 ∧ Completes s.block.reader b w

theorem witness_ReaderEventsHappenExactlyWhenEnabled :
    (State.reset.block.reader.wf wire = true ∧ State.reset.block.reader.resValid = false) ∧
    (waiting.block.reader.wf wire = true ∧ waiting.block.reader.resValid = true ∧ waiting.block.reader.rstate ≠ .closed) ∧
    (closed.block.reader.wf wire = true ∧ closed.block.reader.rstate = .closed) := by decide

theorem witness_ClosedPortsRefuse :
    enabled (.rxByte 0xAA) waiting.block = false ∧ enabled .rxEof closed.block = false ∧
    enabled .resTake Block.reset = false ∧ enabled (.cmdReq .wake) ⟨Reader.reset, busy .sleep 0⟩ = false ∧
    enabled .txTake Block.reset = false := by decide

theorem witness_EnabledOperationsComplete :
    ∀ p ∈ ([(.rspData 0x28 0x00 0x3C 0x00 0x00 0x00 0x64, State.reset), (.cmdSleep, State.reset), (.cmdWake, State.reset),
      (.reset, closed), (.rxByte 0xAB, collecting ex9), (.rxEof, State.reset), (.rxFail, collecting [0xAA]),
      (.resTake, closed), (.cmdReq .wake, State.reset), (.txTake, machine Reader.reset (busy .wake 18)),
      (.checksum [], State.reset), (.u16le 0xFF 0xFF, State.reset), (.cmdbyte .wake 18, State.reset),
      (.build .sleep, State.reset), (.parse ex, State.reset), (.tenths 65535, State.reset)] : List (Instr × State)),
      p.2.block.wf = true ∧ WellFormed p.1 = true ∧ enabled p.1 p.2.block = true := by decide

theorem witness_UnreachableStatesHaveNoSteps :
    (readerSide .rxEof = true ∧ enabled .rxEof (machine (reader .seek [0xAA]) Framer.reset).block = true ∧
      (machine (reader .seek [0xAA]) Framer.reset).block.reader.wf wire = false) ∧
    (framerSide (.cmdReq .wake) = true ∧ enabled (.cmdReq .wake) (machine Reader.reset ⟨false, .wake, 5⟩).block = true ∧
      (machine Reader.reset ⟨false, .wake, 5⟩).block.framer.wf = false) := by decide

theorem witness_ByteInSeek : openReader State.reset .seek = true ∧ (0xAA : Byte) = 0xAA ∧ (0xAB : Byte) ≠ 0xAA := by decide

theorem witness_ByteWhileCollecting :
    (openReader (collecting [0xAA]) .frame = true ∧ (collecting [0xAA]).block.reader.cnt.val ≤ 8) ∧
    (openReader (collecting (ex9.take 8)) .frame = true ∧ (collecting (ex9.take 8)).block.reader.cnt.val = 8) := by decide

theorem witness_TenthByteReading :
    tenth (collecting ex9) 0xAB ex ∧ ex[1] = 0xC0 ∧ ex[8] = checksum [ex[2], ex[3], ex[4], ex[5], ex[6], ex[7]] ∧
    ex[9] = 0xAB := by
  unfold tenth Completes
  decide

/-- A window with a wrong checksum, and a right or a wrong tail. -/
def corrupt (tail : Byte) : Vector Byte 10 := #v[0xAA, 0xC0, 0x28, 0x00, 0x3C, 0x00, 0x00, 0x00, 0x65, tail]

theorem witness_TenthByteChecksumMismatch :
    ∀ b ∈ ([0xAB, 0x00] : List Byte), tenth (collecting ((corrupt b).toList.take 9)) b (corrupt b) ∧ (corrupt b)[1] = 0xC0 ∧
      (corrupt b)[8] ≠ checksum [(corrupt b)[2], (corrupt b)[3], (corrupt b)[4], (corrupt b)[5], (corrupt b)[6],
        (corrupt b)[7]] := by
  unfold tenth Completes
  decide

theorem witness_TenthByteBadTail :
    tenth (collecting ex9) 0xAA (ex.set 9 0xAA) ∧ (ex.set 9 0xAA)[1] = 0xC0 ∧
    (ex.set 9 0xAA)[8] = checksum [ex[2], ex[3], ex[4], ex[5], ex[6], ex[7]] ∧ (ex.set 9 0xAA)[9] ≠ 0xAB := by
  unfold tenth Completes
  decide

/-- The windows of V12: a head at the given offset, and none. -/
def falseHead (k : Nat) : Vector Byte 10 :=
  Vector.ofFn fun i => if i.val = 0 || i.val = k then 0xAA else BitVec.ofNat 8 i.val

/-- The machine before the tenth byte of such a window. -/
def beforeFalse (k : Nat) : State := collecting ((falseHead k).toList.take 9)

theorem witness_TenthByteUnexpectedIdRescans_miss :
    tenth (beforeFalse 0) 0x09 (falseHead 0) ∧ (falseHead 0)[1] ≠ 0xC0 ∧
    ∀ j : Fin 10, 1 ≤ j.val → (falseHead 0)[j] ≠ 0xAA := by
  unfold tenth Completes
  decide

theorem witness_TenthByteUnexpectedIdRescans_hit :
    ∀ k ∈ ([1, 8, 9] : List (Fin 10)), tenth (beforeFalse k.val) (falseHead k.val)[9] (falseHead k.val) ∧
      (falseHead k.val)[1] ≠ 0xC0 ∧ 1 ≤ k.val ∧ (falseHead k.val)[k] = 0xAA ∧
      ∀ j : Fin 10, 1 ≤ j.val → j < k → (falseHead k.val)[j] ≠ 0xAA := by
  unfold tenth Completes
  decide

theorem witness_IdCheckSkipsNoHead :
    ∀ k ∈ ([1, 9] : List (Fin 10)), tenth (beforeFalse k.val) (falseHead k.val)[9] (falseHead k.val) ∧
      (falseHead k.val)[1] ≠ 0xC0 ∧ 1 ≤ k.val ∧ (falseHead k.val)[k] = 0xAA := by
  unfold tenth Completes
  decide

/-- One window of each of PARSE's four outcomes. -/
theorem witness_TenthBytePostsWhatParseSays :
    tenth (collecting ex9) 0xAB ex ∧ tenth (collecting ex9) 0xAA (ex.set 9 0xAA) ∧
    tenth (collecting ((corrupt 0xAB).toList.take 9)) 0xAB (corrupt 0xAB) ∧
    tenth (beforeFalse 9) (falseHead 9)[9] (falseHead 9) :=
  ⟨witness_TenthByteReading.1, witness_TenthByteBadTail.1, (witness_TenthByteChecksumMismatch 0xAB (by decide)).1,
    (witness_TenthByteUnexpectedIdRescans_hit 9 (by decide)).1⟩

theorem witness_EofClosesTheReader : openReader State.reset .seek = true ∧ openReader (collecting ex9) .frame = true := by decide

theorem witness_FailClosesTheReader : openReader State.reset .seek = true ∧ openReader (collecting ex9) .frame = true := by decide

theorem witness_TakeHandsOverTheResult :
    (waiting.block.reader.wf wire = true ∧ waiting.block.reader.resValid = true ∧ waiting.block.reader.rstate ≠ .closed) ∧
    (closed.block.reader.wf wire = true ∧ closed.block.reader.resValid = true ∧ closed.block.reader.rstate = .closed) := by decide

theorem witness_ResponseFrameFromSeekIsRead : openReader State.reset .seek = true := by decide

theorem witness_ResponseFrameIsItsBytes : openReader State.reset .seek = true ∧ openReader (collecting ex9) .frame = true := by
  decide

theorem witness_RequestStartsAFrame :
    (Framer.reset.wf = true ∧ Framer.reset.txBusy = false) ∧ ((busy .sleep 18).wf = true ∧ (busy .sleep 18).txBusy = true) := by
  decide

theorem witness_TakeHandsOverTheByte :
    ∀ i ∈ ([0, 17, 18] : List (Fin 19)), (busy .wake i).wf = true ∧ (busy .wake i).txBusy = true := by decide

theorem witness_WholeFramesAreEmitted : Framer.reset.wf = true ∧ Framer.reset.txBusy = false := by decide

/-- A wake frame with reader events and a codec function between its takes. -/
def interleaved : List Instr :=
  [.rxByte 0xAA, .cmdReq .wake, .txTake, .rxByte 0xC0, .tenths 40] ++ List.replicate 18 .txTake ++ [.rxEof]

theorem witness_InterleavedFrameIsEmittedWhole :
    State.reset.block.framer.txBusy = false ∧ .reset ∉ interleaved ∧
    interleaved.filter framerSide = .cmdReq .wake :: List.replicate 19 .txTake ∧
    (after (runEvents interleaved State.reset)).isSome = true := by decide

theorem witness_CmdbyteOperation : (18 : BitVec 5).toNat ≤ 18 ∧ 18 < (19 : BitVec 5).toNat := by decide

/-- A window for each clause of PARSE. -/
theorem witness_ParseOperation :
    (ex[0] = 0xAA ∧ ex[1] = 0xC0 ∧ ex[8] = checksum [ex[2], ex[3], ex[4], ex[5], ex[6], ex[7]] ∧ ex[9] = 0xAB) ∧
    (ex.set 9 0xAA)[9] ≠ 0xAB ∧ ((corrupt 0xAB)[1] = 0xC0 ∧ (corrupt 0xAB)[8] ≠ 0x64) ∧
    ((falseHead 9)[0] = 0xAA ∧ (falseHead 9)[1] ≠ 0xC0) ∧ (ex.set 0 0xAB)[0] ≠ 0xAA := by decide

theorem witness_CodecArithmeticLaws :
    ([1, 2] : List Byte).Perm [2, 1] ∧ (0xFF : Byte) ≠ ([0x00] : List Byte)[0] := ⟨List.Perm.swap _ _ _, by decide⟩

theorem witness_SingleByteErrorsAreNamed :
    validFrame wire ex = true ∧ ∀ i ∈ ([1, 2, 7, 8, 9] : List (Fin 10)), 1 ≤ i.val ∧ (0x77 : Byte) ≠ ex[i] := by decide

theorem witness_AgentsWriteOnlyTheirOwn :
    (after (exec (.rxByte 0xAA) State.reset)).isSome = true ∧ readerSide (.rxByte 0xAA) = true ∧
    (after (exec .cmdWake State.reset)).isSome = true ∧ framerSide .cmdWake = true ∧
    (after (exec (.tenths 40) State.reset)).isSome = true ∧ codecSide (.tenths 40) = true := by decide

theorem witness_PostedResultIsNeverOverwritten :
    waiting.block.reader.resValid = true ∧ (after (exec (.cmdReq .wake) waiting)).isSome = true := by decide

/-- The four ways a result comes. -/
theorem witness_ResultsComeOnlyFromThreeEvents :
    ∀ p ∈ ([(.rxByte 0xAB, collecting ex9), (.rxEof, State.reset), (.rxFail, State.reset),
      (.rspData 0x28 0x00 0x3C 0x00 0x00 0x00 0x64, State.reset)] : List (Instr × State)),
      p.2.block.reader.resValid = false ∧ ((after (exec p.1 p.2)).map (·.block.reader.resValid)) = some true := by decide

theorem witness_OnlyResetLeavesClosed :
    closed.block.reader.rstate = .closed ∧ (after (exec .resTake closed)).isSome = true ∧
    (after (exec .cmdSleep closed)).isSome = true := by decide

theorem witness_ReaderAndFramerEventsCommute :
    readerSide (.rxByte 0xAA) = true ∧ framerSide (.cmdReq .wake) = true ∧
    (after (runEvents [.rxByte 0xAA, .cmdReq .wake] State.reset)).isSome = true ∧
    (after (runEvents [.cmdReq .wake, .rxByte 0xAA] State.reset)).isSome = true := by decide

theorem witness_AgentsSeeOnlyTheirOwnEvents :
    (after (runEvents [.rxByte 0xAA, .cmdReq .wake, .txTake, .rxEof, .build .wake, .resTake, .reset, .rxByte 0xAA]
      State.reset)).isSome = true := by decide

/-- Pins with the given ports' inputs and no reset. -/
def pins (rxValid : Bool) (rxKind : BitVec 2) (resReady cmdValid : Bool) (cmdMode : BitVec 1) (txReady : Bool) : Pins :=
  ⟨false, rxValid, rxKind, 0xAA, resReady, cmdValid, cmdMode, txReady⟩

/-- Pins and blocks for each clause: reset; an RX word of every kind, with the RES and TX sides not ready; a take; a request of
either mode; a take of a transmitted byte; and a stalled RX word and CMD word, with nothing to take. -/
theorem witness_EdgeHasOneEventOfEachAgent :
    (Pins.mk true true 0 0xAA true true 1 true).rst = true ∧
    (∀ k ∈ ([0, 1, 2, 3] : List (BitVec 2)), (pins true k false false 0 false).rst = false ∧
      (pins true k false false 0 false).rxValid = true ∧ (pins true k false false 0 false).rxKind = k) ∧
    (Block.reset.reader.rstate ≠ .closed ∧ Block.reset.reader.resValid = false ∧ Block.reset.framer.txBusy = false) ∧
    (closed.block.reader.resValid = true ∧ (pins true 0 true false 0 false).resReady = true) ∧
    (∀ m ∈ ([0, 1] : List (BitVec 1)), (pins false 0 false true m false).cmdValid = true ∧
      (pins false 0 false true m false).cmdMode = m) ∧
    ((busy .wake 18).txBusy = true ∧ (pins false 0 false true 1 true).txReady = true) ∧
    (¬ ((pins true 0 false true 1 false).rxValid = true ∧ closed.block.reader.rstate ≠ .closed ∧
      closed.block.reader.resValid = false) ∧
      ¬ (closed.block.reader.resValid = true ∧ (pins true 0 false true 1 false).resReady = true)) ∧
    (¬ ((pins true 0 false true 1 false).cmdValid = true ∧ (busy .sleep 0).txBusy = false) ∧
      ¬ ((busy .sleep 0).txBusy = true ∧ (pins true 0 false true 1 false).txReady = true)) := by decide

/-- An edge with both agents, and one with reset. -/
theorem witness_EdgeStepsBothAgents :
    (machine (reader .frame [0xAA]) (busy .wake 3)).block.wf = true ∧
    (Pins.mk false true 0 0xC0 true true 1 true).rst = false ∧ (Pins.mk true true 0 0xC0 true true 1 true).rst = true := by decide

/-- Two offers held while a result waits. -/
def heldOffers : List Offer := [encode (.rxByte 0xAA), encode .txTake]

theorem heldOffers_are_held : ∀ x ∈ heldOffers, Held waiting.block x := by
  intro x hx
  simp only [heldOffers, List.mem_cons, List.not_mem_nil, or_false] at hx
  rcases hx with rfl | rfl
  · exact ⟨.rxByte 0xAA, [], by decide, by decide⟩
  · exact ⟨.txTake, [], by decide, by decide⟩

/-- The take of a transmitted byte, held by an idle framer. -/
theorem txTake_is_held : ∀ x ∈ [encode .txTake], Held State.reset.block x := by
  intro x hx
  cases List.mem_singleton.1 hx
  exact ⟨.txTake, [], by decide, by decide⟩

/-- For each clause: an operation behind held offers; and a corrupt frame and a single byte on the inbound wire. -/
theorem witness_StepRunsTheFirstOpenOffer :
    ((waiting.withOffers (heldOffers ++ encode .resTake :: [])).offers = heldOffers ++ encode .resTake :: [] ∧
      (∀ x ∈ heldOffers, Held waiting.block x) ∧
      decode (encode .resTake) = .ok .resTake ∧ enabled .resTake waiting.block = true) ∧
    ((∀ x ∈ [encode .txTake], Held State.reset.block x) ∧
      decode ⟨.frameIn, (corrupt 0xAB).toList⟩ = .error .frameChecksum ∧ decode ⟨.frameIn, [0x13]⟩ = .error .wrongLength ∧
      openReader State.reset .seek = true) :=
  ⟨⟨rfl, heldOffers_are_held, by decide, by decide⟩, txTake_is_held, by decide, by decide, by decide⟩

theorem witness_StepWithoutAnOpenOffer :
    State.reset.offers = [] ∧
    ((waiting.withOffers heldOffers).offers ≠ [] ∧ ∀ x ∈ heldOffers, Held waiting.block x) ∧
    (∀ o ∈ ([⟨.rst, [0x00]⟩, ⟨.frameIn, []⟩] : List Offer),
      (waiting.withOffers (heldOffers ++ o :: [])).offers = heldOffers ++ o :: []) ∧
    ((waiting.withOffers (heldOffers ++ ⟨.cmd, [0x02]⟩ :: [])).offers = heldOffers ++ ⟨.cmd, [0x02]⟩ :: [] ∧
      decode ⟨.cmd, [0x02]⟩ = .error .strayBits) :=
  ⟨rfl, ⟨by decide, heldOffers_are_held⟩, fun _ _ => rfl, rfl, by decide⟩

theorem witness_FetchWordIsRun : decodeTableWord 16 0x0AA = some (.rxByte 0xAA) := by decide

theorem witness_NoOfferOvertakesItsPort :
    nextOffer waiting.block [encode (.rxByte 0xAA), encode .txTake, encode .resTake] =
      some (encode .resTake, [encode (.rxByte 0xAA), encode .txTake]) := by decide

/-- A state that is not the reset state: two bytes of a sleep frame are out and a candidate is begun; its next offer steps. -/
def underway : State where
  block := ⟨reader .frame [0xAA], busy .sleep 2⟩
  trace := [.reset, .rxByte 0x55, .cmdReq .sleep, .tx ⟨false, 0xAA⟩, .rxByte 0xAA, .tx ⟨false, 0xB4⟩]
  offers := [encode (.cmdReq .wake), encode .txTake, encode (.rxByte 0xC0)]
  codec := none

theorem witness_StepKeepsTheBlockWellFormed :
    underway.block.wf = true ∧ (after (step underway)).isSome = true := by decide

theorem witness_StepKeepsTheTraceReplayable : underway.TraceLeadsHere ∧ (after (step underway)).isSome = true := by
  unfold State.TraceLeadsHere
  decide

theorem witness_StepKeepsTxsTheRequestedFrames : underway.TxsIsFrames ∧ (after (step underway)).isSome = true := by
  unfold State.TxsIsFrames
  decide

theorem witness_StepKeepsTheCandidateOfTheStream : underway.CandidateEndsRxs ∧ (after (step underway)).isSome = true :=
  ⟨⟨[0x55], by decide⟩, by decide⟩

theorem witness_DecodeEncodeRoundTrip :
    WellFormed (.rspData 0x28 0x00 0x3C 0x00 0x00 0x00 0x64) = true ∧ WellFormed (.cmdbyte .sleep 0) = true ∧
    WellFormed (.cmdbyte .wake 18) = true ∧ WellFormed (.parse ex) = true := by decide

/-- A word with one encoding, and one with a bit that the block ignores. -/
theorem witness_EachWordHasOneMeaning :
    decode ⟨.rx, [0xAA, 0x00]⟩ = .ok (.rxByte 0xAA) ∧ decode ⟨.rx, [0xFF, 0x01]⟩ = .ok .rxEof ∧
    decode ⟨.cmdbyte, [0x12]⟩ = .ok (.cmdbyte .sleep 18) := by decide

theorem witness_ReadNextIsARunOfTheMachine :
    State.reset.block.reader.wf wire = true ∧
    State.reset.block.reader.readNext wire (byteEvents (0x13 :: ex.toList) ++ [.eof]) =
      some (⟨.reading, 40, 60⟩, [.eof], Reader.reset) := by decide

/-- V9 rows 1 and 2. -/
theorem witness_NoiseThenFrameIsRead :
    (∀ b ∈ ([] : List Byte), b ≠ wire.head) ∧ (∀ b ∈ ([0x00, 0x13, 0xAB, 0xC0] : List Byte), b ≠ wire.head) ∧
    validFrame wire ex = true := by decide

/-- V3. -/
theorem witness_CorruptedThenValidFrame :
    (corrupt 0xAB)[0] = wire.head ∧ (corrupt 0xAB)[1] = wire.rspId ∧
    (corrupt 0xAB)[8] ≠ checksum [(corrupt 0xAB)[2], (corrupt 0xAB)[3], (corrupt 0xAB)[4], (corrupt 0xAB)[5],
      (corrupt 0xAB)[6], (corrupt 0xAB)[7]] ∧ validFrame wire ex = true := by decide

/-- V12, k = 1 and k = 9, and V13. -/
theorem witness_FalseHeadIsRecovered :
    ∀ junk ∈ ([[], [0x01, 0x02, 0x03, 0x04, 0x05, 0x06, 0x07, 0x08], [0x00]] : List (List Byte)),
      junk.length ≤ 8 ∧ (∀ b ∈ junk, b ≠ wire.head) ∧ (junk ++ ex.toList).head? ≠ some wire.rspId ∧
      validFrame wire ex = true := by decide

theorem witness_TerminalResultIsReturnedForEver :
    closed.block.reader.wf wire = true ∧ closed.block.reader.rstate = .closed ∧
    (posted .closed [] .ioFailure 0 0).wf wire = true := by decide

end Sys2Proof.Tests
end

/-! PROOFS of the statements about the state (10_state.md). -/

namespace Sys2Proof.Machine

/-! ### The outputs of an idle framer (10_state.md R26) -/

theorem Framer.cmdReady_of_idle {f : Framer} (h : f.txBusy = false) : f.cmdReady = true := by
  simp [Framer.cmdReady, h]

theorem Framer.txData_of_idle (k : WireConstants) {f : Framer} (h : f.txBusy = false) : f.txData k = 0 := by
  simp [Framer.txData, h]

theorem Framer.txLast_of_idle {f : Framer} (h : f.txBusy = false) : f.txLast = false := by
  simp [Framer.txLast, h]

/-! ### The reader at reset -/

/-- The reader starts open: it accepts an RX event at once. -/
theorem Reader.rxReady_reset : Reader.reset.rxReady = true :=
  Reader.reset.rxReady_iff.2 ⟨RState.noConfusion, rfl⟩

theorem Reader.getElem_buf_reset (i : Fin 10) : Reader.reset.buf[i] = 0 := memRead1_emptyBuf i

/-- Settles O2: nine elements are read off the reset state and BUF register by register; the outputs are those of an
open reader and of an idle framer. -/
theorem resetStateElementsAndOutputs : Obligations.ResetStateElementsAndOutputs := by
  have hidle : State.reset.block.framer.txBusy = false := rfl
  refine ⟨⟨rfl, rfl, Reader.getElem_buf_reset, rfl, rfl, rfl, rfl, hidle, rfl, rfl⟩, ?_⟩
  exact ⟨Reader.rxReady_reset, Framer.cmdReady_of_idle hidle, Framer.txData_of_idle wire hidle,
    Framer.txLast_of_idle hidle⟩

end Sys2Proof.Machine

/-! PROOFS of the statements about the encodings (30_encoding.md). -/

namespace Sys2Proof

/-! ### The RX word `{rx_kind[1:0], rx_data[7:0]}` (30_encoding.md R59) -/

/-- The word of an RX offer is read back whole, and each is an event. -/
theorem decode_wordOffer_rx (w : BitVec 10) : decode (wordOffer .rx w) = .ok (rxEvent w) := by
  simp [decode, wordOffer, portWord_wordBytes, Except.map]

/-- `rxEvent` looks at the two fields of the word apart. -/
theorem rxEvent_append (kind : BitVec 2) (data : Byte) :
    rxEvent (kind ++ data) = if kind = 0 then .rxByte data else if kind = 1 then .rxEof else .rxFail := by
  have hkind : (kind ++ data).extractLsb' 8 2 = kind := BitVec.extractLsb'_append_eq_left
  have hdata : (kind ++ data).extractLsb' 0 8 = data := BitVec.extractLsb'_append_eq_right
  unfold rxEvent
  rw [hkind, hdata]
  split
  case h_1 => rfl
  case h_2 => rfl
  case h_3 h0 h1 => exact ((if_neg h0).trans (if_neg h1)).symm

/-- Settles O52: the RX word is read back from its bytes, and its event is chosen by the kind field alone. -/
theorem everyRxWordIsAnEvent : Obligations.EveryRxWordIsAnEvent := by
  intro kind data
  rw [decode_wordOffer_rx, rxEvent_append]

end Sys2Proof

/-! PROOFS of the statements about the codec functions (40_codec.md). -/

namespace Sys2Proof.Machine

/-! ### The codec's wires (40_codec.md R74) -/

theorem changesOnlyCodec_withCodec (s : State) (v : CodecValue) : ChangesOnlyCodec s (s.withCodec v) v :=
  ⟨rfl, rfl, rfl, rfl⟩

/-! ### CHECKSUM (40_codec.md R67) -/

theorem toNat_checksum (bytes : List Byte) : (checksum bytes).toNat = (bytes.map BitVec.toNat).sum % 256 :=
  BitVec.toNat_ofNat _ 8

/-- Settles O25: the value on the codec's wires is the exact sum, cut to eight bits once. -/
theorem checksumOperation : Obligations.ChecksumOperation := fun s bytes =>
  ⟨_, checksum bytes, exec_checksum bytes, toNat_checksum bytes, changesOnlyCodec_withCodec s _⟩

/-! ### U16LE (40_codec.md R68) -/

/-- Settles O26: the byte at the higher offset, set above the other, weighs 256. -/
theorem u16leOperation : Obligations.U16leOperation := fun s lo hi =>
  ⟨_, u16le lo hi, exec_u16le lo hi, toNat_u16le lo hi, changesOnlyCodec_withCodec s _⟩

/-! ### CMDBYTE (40_codec.md R70) -/

theorem exec_cmdbyte_outside (s : State) (m : Mode) {i : BitVec 5} (h : ¬ i.toNat < 19) :
    exec (.cmdbyte m i) s = .refused .outsideDomain := by
  simp only [exec, execCmdbyte, dif_neg h, codecFunction]

/-- The byte at offset 4 is the mode bit (30_encoding.md R51). -/
theorem modeByte_wire (m : Mode) : modeByte wire m = m.bit.setWidth 8 := by cases m <;> rfl

/-- The computed checksum byte is the one of the printed frames (92_eei_decisions.md D15). -/
theorem checksum_cmdPayload_wire (m : Mode) : checksum (cmdPayload wire m) = 0x05 + m.bit.setWidth 8 := by
  cases m <;> decide

/-- The command frame's table (40_codec.md R70), with its two device id bytes in one row. -/
theorem cmdByte_wire (m : Mode) (i : Fin 19) : cmdByte wire m i =
    if i.val = 0 then 0xAA else if i.val = 1 then 0xB4 else if i.val = 2 then 0x06
    else if i.val = 3 then 0x01 else if i.val = 4 then m.bit.setWidth 8 else if i.val ≤ 14 then 0x00
    else if i.val ≤ 16 then 0xFF else if i.val = 17 then 0x05 + m.bit.setWidth 8 else 0xAB := by
  unfold cmdByte
  rw [modeByte_wire, checksum_cmdPayload_wire]
  by_cases hlow : i.val ≤ 14
  · simp only [if_pos hlow]
    rfl
  · have hrow : i.val ≤ 16 ↔ i.val = 15 ∨ i.val = 16 := by omega
    simp only [if_neg hlow, hrow, ite_or]
    rfl

/-- Settles O27: on the domain by the table of the command frame, beyond it by the refusal. -/
theorem cmdbyteOperation : Obligations.CmdbyteOperation := by
  intro s m i
  constructor
  · intro h
    have hi : i.toNat < 19 := Nat.lt_succ_of_le h
    exact ⟨_, _, exec_cmdbyte m hi, changesOnlyCodec_withCodec s _, cmdByte_wire m ⟨i.toNat, hi⟩⟩
  · intro h
    exact exec_cmdbyte_outside s m (Nat.not_lt.2 h)

/-! ### BUILD (40_codec.md R71) -/

/-- Offsets 2 to 16 of a built frame are its payload (30_encoding.md R52). -/
theorem payload_build (k : WireConstants) (m : Mode) : ((build k m).toList.drop 2).take 15 = cmdPayload k m := by
  simp only [build, Vector.toList_ofFn]
  rfl

/-- The checksum byte of a built frame is the CHECKSUM of its own payload, whatever the wire constants are. -/
theorem build_checksum (k : WireConstants) (m : Mode) :
    (build k m)[17] = checksum (((build k m).toList.drop 2).take 15) := by
  rw [payload_build]
  exact getElem_build k m 17

/-- Settles O28: BUILD is CMDBYTE at each offset, and its payload read back is what CMDBYTE sums at offset 17. -/
theorem buildOperation : Obligations.BuildOperation := fun s m =>
  ⟨_, build wire m, exec_build m, changesOnlyCodec_withCodec s _, getElem_build wire m, build_checksum wire m⟩

/-! ### PARSE (40_codec.md R72) -/

section Classify

variable {k : WireConstants} {f : Vector Byte 10}

theorem classify_wrongId (hid : f[1] ≠ k.rspId) : classify k f = .unexpectedCommandId := if_pos hid

theorem classify_wrongSum (hid : f[1] = k.rspId) (hsum : f[8] ≠ checksum (rspPayload f)) :
    classify k f = .checksumMismatch := by
  simp [classify, hid, hsum]

theorem classify_wrongTail (hid : f[1] = k.rspId) (hsum : f[8] = checksum (rspPayload f)) (htail : f[9] ≠ k.tail) :
    classify k f = .badTail := by
  simp [classify, hid, hsum, htail]

end Classify

theorem exec_parse_outside (s : State) {f : Vector Byte 10} (h : f[0] ≠ wire.head) :
    exec (.parse f) s = .refused .outsideDomain := by
  simp only [exec, execParse, parse, if_neg h, Option.map_none, codecFunction]

/-- Settles O29: with a head the value is `classify`'s, whose clauses are the first failing test or none; without one
PARSE is refused. -/
theorem parseOperation : Obligations.ParseOperation := by
  intro s f
  refine ⟨fun hhead => ?_, exec_parse_outside s⟩
  refine ⟨_, classify wire f, exec_parse hhead, changesOnlyCodec_withCodec s _, fun hid => classify_wrongId hid,
    fun hid hsum => classify_wrongSum hid hsum, fun hid hsum htail => classify_wrongTail hid hsum htail, ?_⟩
  intro hid hsum htail
  exact classify_valid ((validFrame_iff wire f).2 ⟨hhead, hid, hsum, htail⟩)

/-! ### TENTHS (40_codec.md R73) -/

/-- The quotient and the decimal digit lose nothing of the raw field. -/
theorem tenths_value (r : Half) : 10 * (tenths r).whole + (tenths r).digit.val = r.toNat :=
  Nat.div_add_mod r.toNat 10

/-- A value q.d with `10 q + d = n` stands for the rational `n / 10`. -/
theorem Tenths.toRat_of_value {v : Tenths} {n : Nat} (h : 10 * v.whole + v.digit.val = n) :
    v.toRat = (n : Rat) / 10 := by
  subst h
  unfold Tenths.toRat
  push_cast
  ring

/-- Settles O30: the exact rational follows from the quotient and its digit. -/
theorem tenthsOperation : Obligations.TenthsOperation := fun s r =>
  ⟨_, tenths r, exec_tenths r, changesOnlyCodec_withCodec s _, tenths_value r, Tenths.toRat_of_value (tenths_value r)⟩

end Sys2Proof.Machine

/-! PROOFS of the statements about the command framer (41_command_framer.md). -/

namespace Sys2Proof.Machine

/-! ### The outputs of a busy framer (41_command_framer.md R78) -/

theorem Framer.cmdReady_of_busy {f : Framer} (h : f.txBusy = true) : f.cmdReady = false := by
  simp [Framer.cmdReady, h]

theorem Framer.txData_of_busy (k : WireConstants) {f : Framer} (h : f.txBusy = true) :
    f.txData k = cmdByte k f.txMode f.txIdx := by
  simp [Framer.txData, h]

theorem Framer.txLast_of_busy {f : Framer} (h : f.txBusy = true) : f.txLast = decide (f.txIdx.val = 18) := by
  simp [Framer.txLast, h, beq_eq_decide]

theorem Framer.txWord_of_busy (k : WireConstants) {f : Framer} (h : f.txBusy = true) :
    f.txWord k = ⟨decide (f.txIdx.val = 18), cmdByte k f.txMode f.txIdx⟩ := by
  rw [Framer.txWord, Framer.txLast_of_busy h, Framer.txData_of_busy k h]

/-! ### What a framer event leaves unchanged (41_command_framer.md R75) -/

theorem changesOnlyFramer_withFramer_record (s : State) (f : Framer) (items : List TraceItem) :
    ChangesOnlyFramer s ((s.withFramer f).record items) items :=
  ⟨rfl, rfl, rfl, rfl⟩

/-! ### CMD.REQ (41_command_framer.md R76) -/

/-- After a request the port shows the head of the frame, for either mode. -/
theorem Framer.txData_request (k : WireConstants) (m : Mode) (f : Framer) : (f.request m).txData k = k.head :=
  Framer.txData_of_busy k (f.request_txBusy m)

/-- Settles O21: an idle framer's port is open and the next framer is the requested one; a busy framer's port is closed. -/
theorem requestStartsAFrame : Obligations.RequestStartsAFrame := by
  intro s m hwf
  constructor
  · intro hidle
    have hopen : s.block.framer.cmdReady = true := Framer.cmdReady_of_idle hidle
    exact ⟨_, (exec_cmdReq m).trans (framerEvent_next hopen hwf), rfl, rfl, rfl,
      Framer.txData_request wire m s.block.framer, changesOnlyFramer_withFramer_record s _ _⟩
  · intro hbusy
    exact (exec_cmdReq m).trans (framerEvent_closed (Framer.cmdReady_of_busy hbusy))

/-! ### TX.TAKE (41_command_framer.md R77) -/

/-- A take from a busy framer: the word of the offset goes on the trace. -/
theorem exec_txTake_of_busy {s : State} (hwf : s.block.framer.wf = true) (hbusy : s.block.framer.txBusy = true) :
    exec .txTake s = .next ((s.withFramer s.block.framer.takeByte).record
      [.tx ⟨decide (s.block.framer.txIdx.val = 18), cmdByte wire s.block.framer.txMode s.block.framer.txIdx⟩]) := by
  rw [exec_txTake, framerEvent_next hbusy hwf, Framer.txWord_of_busy wire hbusy]

/-- Settles O22: the word handed over is that of a busy framer, and the two ends are the two cases of `takeByte`. -/
theorem takeHandsOverTheByte : Obligations.TakeHandsOverTheByte := by
  intro s hwf hbusy
  refine ⟨_, exec_txTake_of_busy hwf hbusy, changesOnlyFramer_withFramer_record s _ _, ?_, ?_⟩
  · intro hlt
    rw [State.record_block, State.withFramer_block_framer, Framer.takeByte_lt hlt]
    exact ⟨hbusy, rfl, rfl⟩
  · intro hlast
    rw [State.record_block, State.withFramer_block_framer, Framer.takeByte_last hlast]
    exact ⟨rfl, rfl, rfl⟩

end Sys2Proof.Machine

/-! PROOFS of the statements about the stream reader (42_stream_reader.md). -/

namespace Sys2Proof.Machine

/-! ### What a reader event leaves unchanged (10_state.md R13) -/

theorem changesOnlyReader_withReader_record (s : State) (r : Reader) (items : List TraceItem) :
    ChangesOnlyReader s ((s.withReader r).record items) items :=
  ⟨rfl, rfl, rfl, rfl⟩

/-! ### When the reader's events have a step (42_stream_reader.md R83) -/

/-- In a well-formed reader the port alone decides. -/
theorem exists_readerEvent_next_iff {s : State} {o : Bool} {f : Reader → Reader} {item : TraceItem}
    (hwf : s.block.reader.wf wire = true) : (∃ t, readerEvent o f item s = .next t) ↔ o = true :=
  ⟨fun ⟨_, h⟩ => (readerEvent_next_iff.1 h).1, fun ho => ⟨_, readerEvent_next ho hwf⟩⟩

/-- The three operations that are RX events. -/
theorem exists_rxEvent_instr {i : Instr} (h : i = .rxEof ∨ i = .rxFail ∨ ∃ b, i = .rxByte b) :
    ∃ e : RxEvent, i = e.instr := by
  obtain rfl | rfl | ⟨b, rfl⟩ := h
  · exact ⟨.eof, rfl⟩
  · exact ⟨.fail, rfl⟩
  · exact ⟨.byte b, rfl⟩

/-- The meaning of an RX event, whichever of the three it is. -/
theorem exec_rxEvent (s : State) (e : RxEvent) :
    exec e.instr s = readerEvent s.block.reader.rxReady (Reader.accept wire e) e.item s := by
  cases e <;> rfl

/-- Settles O4: the RX events stand behind one port and RES.TAKE behind the other, and in a well-formed reader the port
alone decides. -/
theorem readerEventsHappenExactlyWhenEnabled : Obligations.ReaderEventsHappenExactlyWhenEnabled := by
  intro s hwf
  refine ⟨fun i hi => ?_, ?_, ?_⟩
  · obtain ⟨e, rfl⟩ := exists_rxEvent_instr hi
    rw [exec_rxEvent, exists_readerEvent_next_iff hwf, Reader.rxReady_iff]
    refine ⟨Iff.rfl, fun hclosed => readerEvent_closed ?_⟩
    rwa [← Reader.rxReady_iff, Bool.not_eq_true] at hclosed
  · rw [exec_resTake, exists_readerEvent_next_iff hwf]
  · intro hnone
    rw [exec_resTake, readerEvent_closed hnone]

/-! ### Events that empty the candidate and post a result (42_stream_reader.md R88 to R94) -/

theorem emptyIn_clear_post (r : Reader) (st : RState) (kd : ResKind) (p q : Half) :
    EmptyIn ((r.clear st).post kd p q) st :=
  ⟨rfl, rfl, memRead1_emptyBuf⟩

theorem posts_post (r : Reader) (kd : ResKind) (p q : Half) : Posts (r.post kd p q) kd p q :=
  ⟨rfl, rfl, rfl, rfl⟩

theorem posts_raise (r : Reader) (kd : ResKind) : Posts (r.raise kd) kd 0 0 := posts_post r kd 0 0

section RxEvents

variable {s : State} (hwf : s.block.reader.wf wire = true) (hopen : s.block.reader.rstate ≠ .closed)
  (hnone : s.block.reader.resValid = false)

include hwf hopen hnone

/-- An open, well-formed reader takes every RX event. -/
theorem exec_rxEvent_of_open (e : RxEvent) :
    exec e.instr s = .next ((s.withReader (s.block.reader.accept wire e)).record [e.item]) :=
  (exec_rxEvent s e).trans (readerEvent_next (s.block.reader.rxReady_iff.2 ⟨hopen, hnone⟩) hwf)

/-- What an RX event shows whose reader step is to clear the candidate and to post. -/
theorem exec_rxEvent_clear_post {e : RxEvent} {st : RState} {kd : ResKind} {p q : Half}
    (hstep : s.block.reader.accept wire e = (s.block.reader.clear st).post kd p q) :
    ∃ t, exec e.instr s = .next t ∧ EmptyIn t.block.reader st ∧ Posts t.block.reader kd p q ∧
      ChangesOnlyReader s t [e.item] := by
  refine ⟨_, exec_rxEvent_of_open hwf hopen hnone e, ?_, ?_, changesOnlyReader_withReader_record s _ _⟩ <;>
    rw [State.record_block, State.withReader_block_reader, hstep]
  · exact emptyIn_clear_post s.block.reader st kd p q
  · exact posts_post _ kd p q

end RxEvents

/-- Settles O16: RX.EOF clears the candidate to CLOSED and posts EOF. -/
theorem eofClosesTheReader : Obligations.EofClosesTheReader := fun _ hwf hopen hnone =>
  exec_rxEvent_clear_post hwf hopen hnone (e := .eof) rfl

/-- Settles O17: RX.FAIL clears the candidate to CLOSED and posts IO_FAILURE. -/
theorem failClosesTheReader : Obligations.FailClosesTheReader := fun _ hwf hopen hnone =>
  exec_rxEvent_clear_post hwf hopen hnone (e := .fail) rfl

/-! ### RES.TAKE (42_stream_reader.md R95) -/

theorem Reader.takeResult_of_closed {r : Reader} (h : r.rstate = .closed) : r.takeResult = r := if_pos h

theorem Reader.takeResult_of_open {r : Reader} (h : r.rstate ≠ .closed) : r.takeResult = r.unpost := if_neg h

/-- Settles O18: the result goes on the trace as it stands, and the two ends are the two cases of `takeResult`. -/
theorem takeHandsOverTheResult : Obligations.TakeHandsOverTheResult := by
  intro s hwf hvalid
  refine ⟨_, exec_resTake.trans (readerEvent_next hvalid hwf), changesOnlyReader_withReader_record s _ _, ?_, ?_⟩
  · intro hclosed
    exact Reader.takeResult_of_closed hclosed
  · intro hopen
    rw [State.record_block, State.withReader_block_reader, Reader.takeResult_of_open hopen]
    exact ⟨rfl, rfl, rfl, rfl, rfl, rfl, rfl⟩

/-! ### RX.BYTE before the tenth byte (42_stream_reader.md R84, R85) -/

/-- BUF after a byte is stored, register by register. -/
theorem Reader.getElem_store_buf (r : Reader) (i : Fin 10) (b : Byte) (c j : Fin 10) :
    (r.store i b c).buf[j] = if j = i then b else r.buf[j] :=
  (memRead1_memWrite1 r.buf i j b).trans (if_congr eq_comm rfl rfl)

theorem sameResult_store (r : Reader) (i : Fin 10) (b : Byte) (c : Fin 10) : SameResult r (r.store i b c) :=
  ⟨rfl, rfl, rfl, rfl⟩

/-- An open reader steps on a byte by `Reader.rxByte`. -/
theorem exec_rxByte_of_open {s : State} {b : Byte} {r : Reader} (hwf : s.block.reader.wf wire = true)
    (hopen : s.block.reader.rstate ≠ .closed) (hnone : s.block.reader.resValid = false)
    (hstep : s.block.reader.rxByte wire b = r) :
    exec (.rxByte b) s = .next ((s.withReader r).record [.rxByte b]) :=
  hstep ▸ exec_rxEvent_of_open hwf hopen hnone (.byte b)

/-- Settles O8: a head is stored at offset 0, any other byte leaves the reader as it is. -/
theorem byteInSeek : Obligations.ByteInSeek := by
  intro s b hwf hseek hnone
  have hopen : s.block.reader.rstate ≠ .closed := by simp [hseek]
  constructor
  · intro hhead
    exact ⟨_, exec_rxByte_of_open hwf hopen hnone (Reader.rxByte_seek_head hseek hhead), rfl, rfl,
      Reader.getElem_store_buf _ 0 b 1, sameResult_store _ 0 b 1, changesOnlyReader_withReader_record s _ _⟩
  · intro hother
    exact ⟨_, exec_rxByte_of_open hwf hopen hnone (Reader.rxByte_seek_other hseek hother), rfl,
      changesOnlyReader_withReader_record s _ _⟩

/-- Settles O9: the byte is stored at offset CNT, and no test of its value is on the way. -/
theorem byteWhileCollecting : Obligations.ByteWhileCollecting := by
  intro s b hwf hframe hnone hcnt
  have hopen : s.block.reader.rstate ≠ .closed := by simp [hframe]
  exact ⟨_, exec_rxByte_of_open hwf hopen hnone (Reader.rxByte_collect hframe hcnt), rfl, rfl,
    Reader.getElem_store_buf _ _ b _, sameResult_store _ _ b _, changesOnlyReader_withReader_record s _ _⟩

/-! ### The tenth byte (42_stream_reader.md R86) -/

/-- The window of R86 is determined by its ten bytes. -/
theorem window_of_completes {r : Reader} {b : Byte} {w : Vector Byte 10} (h : Completes r b w) :
    window r.buf b = w := by
  apply Vector.ext
  intro i hi
  have hread : (window r.buf b)[i] = if 9 = (⟨i, hi⟩ : Fin 10) then b else r.buf[i] :=
    memRead1_memWrite1 r.buf 9 ⟨i, hi⟩ b
  have hbyte : w[i] = if i < 9 then r.buf[i] else b := h ⟨i, hi⟩
  have hlast : 9 = (⟨i, hi⟩ : Fin 10) ↔ ¬ i < 9 := Fin.ext_iff.trans (show 9 = i ↔ ¬ i < 9 by omega)
  simp only [hread, hbyte, hlast, ite_not]

section Complete

variable {k : WireConstants} {b : Byte} {r : Reader} {w : Vector Byte 10} (hw : Completes r b w)

include hw

theorem Reader.complete_of_reading {p q : Half} (h : classify k w = .reading p q) :
    r.complete k b = (r.clear .seek).post .reading p q := by
  simp only [Reader.complete, window_of_completes hw, h]

theorem Reader.complete_of_checksumMismatch (h : classify k w = .checksumMismatch) :
    r.complete k b = (r.clear .seek).raise .checksumMismatch := by
  simp only [Reader.complete, window_of_completes hw, h]

theorem Reader.complete_of_badTail (h : classify k w = .badTail) :
    r.complete k b = (r.clear .seek).raise .badTail := by
  simp only [Reader.complete, window_of_completes hw, h]

theorem Reader.complete_of_wrongId (h : classify k w = .unexpectedCommandId) :
    r.complete k b = (r.resync k w).raise .unexpectedCommandId := by
  simp only [Reader.complete, window_of_completes hw, h]

end Complete

/-- A window that passes the three tests of 30_encoding.md R62 is a reading; the head is not looked at again. -/
theorem classify_reading {k : WireConstants} {f : Vector Byte 10} (hid : f[1] = k.rspId)
    (hsum : f[8] = checksum (rspPayload f)) (htail : f[9] = k.tail) :
    classify k f = .reading (u16le f[2] f[3]) (u16le f[4] f[5]) := by
  simp [classify, hid, hsum, htail]

/-- A tenth byte that leaves no candidate. -/
theorem exec_tenth_clear_post {s : State} {b : Byte} {kd : ResKind} {p q : Half}
    (hwf : s.block.reader.wf wire = true) (hframe : s.block.reader.rstate = .frame)
    (hnone : s.block.reader.resValid = false) (hcnt : s.block.reader.cnt = 9)
    (hstep : s.block.reader.complete wire b = (s.block.reader.clear .seek).post kd p q) :
    ∃ t, exec (.rxByte b) s = .next t ∧ EmptyIn t.block.reader .seek ∧ Posts t.block.reader kd p q ∧
      ChangesOnlyReader s t [.rxByte b] :=
  exec_rxEvent_clear_post hwf (by simp [hframe]) hnone (e := .byte b)
    ((Reader.rxByte_tenth hframe (congrArg Fin.val hcnt)).trans hstep)

/-- Settles O10: the completed window passes the three tests, so its two fields are posted. -/
theorem tenthByteReading : Obligations.TenthByteReading := by
  intro s b w hwf hframe hnone hcnt hw hid hsum htail
  exact exec_tenth_clear_post hwf hframe hnone hcnt
    (Reader.complete_of_reading hw (classify_reading hid hsum htail))

/-- Settles O11: the checksum is the first test that fails, and the tail is not looked at. -/
theorem tenthByteChecksumMismatch : Obligations.TenthByteChecksumMismatch := by
  intro s b w hwf hframe hnone hcnt hw hid hsum
  exact exec_tenth_clear_post hwf hframe hnone hcnt
    (Reader.complete_of_checksumMismatch hw (classify_wrongSum hid hsum))

/-- Settles O12: the tail is the first test that fails. -/
theorem tenthByteBadTail : Obligations.TenthByteBadTail := by
  intro s b w hwf hframe hnone hcnt hw hid hsum htail
  exact exec_tenth_clear_post hwf hframe hnone hcnt
    (Reader.complete_of_badTail hw (classify_wrongTail hid hsum htail))

/-! ### The re-scan (42_stream_reader.md R88, R89) -/

section Rescan

variable {k : WireConstants} {w : Vector Byte 10}

theorem rescan_of_noHead (h : ∀ j : Fin 10, 1 ≤ j.val → w[j] ≠ k.head) : rescan k w = none := by
  cases hr : rescan k w with
  | none => rfl
  | some i =>
    obtain ⟨hi, hhead, -⟩ := rescan_eq_some hr
    exact absurd hhead (h i hi)

/-- The first head is the only offset the re-scan can answer: an earlier one holds no head, a later one is not the first. -/
theorem rescan_of_firstHead {i : Fin 10} (hi : 1 ≤ i.val) (hhead : w[i] = k.head)
    (hfirst : ∀ j : Fin 10, 1 ≤ j.val → j < i → w[j] ≠ k.head) : rescan k w = some i := by
  cases hr : rescan k w with
  | none => exact absurd hhead (rescan_eq_none hr i hi)
  | some n =>
    obtain ⟨hn, hnhead, hnfirst⟩ := rescan_eq_some hr
    rcases lt_trichotomy n i with hlt | heq | hgt
    · exact absurd hnhead (hfirst n hn hlt)
    · rw [heq]
    · exact absurd hhead (hnfirst i hi hgt)

theorem Reader.resync_miss {r : Reader} (h : rescan k w = none) : r.resync k w = r.clear .seek := by
  simp only [Reader.resync, h]

theorem Reader.resync_hit {r : Reader} {i : Fin 10} (h : rescan k w = some i) : r.resync k w = r.keepFrom w i := by
  simp only [Reader.resync, h]

end Rescan

/-- CNT after a hit at offset 1 or later: so many bytes of the window are left (42_stream_reader.md R89). -/
theorem Reader.keepFrom_cnt_val (r : Reader) (w : Vector Byte 10) {i : Fin 10} (hi : 1 ≤ i.val) :
    (r.keepFrom w i).cnt.val = 10 - i.val :=
  Nat.mod_eq_of_lt (by omega)

/-- Settles O13: the id is the first test that fails, and the two ends are the two answers of the re-scan. -/
theorem tenthByteUnexpectedIdRescans : Obligations.TenthByteUnexpectedIdRescans := by
  intro s b w hwf hframe hnone hcnt hw hid
  have hstep := Reader.complete_of_wrongId hw (classify_wrongId (k := wire) hid)
  constructor
  · intro hmiss
    rw [Reader.resync_miss (rescan_of_noHead hmiss)] at hstep
    exact exec_tenth_clear_post hwf hframe hnone hcnt hstep
  · intro k hk hhead hfirst
    rw [Reader.resync_hit (rescan_of_firstHead hk hhead hfirst)] at hstep
    have htenth := (Reader.rxByte_tenth hframe (congrArg Fin.val hcnt)).trans hstep
    exact ⟨_, exec_rxByte_of_open hwf (by simp [hframe]) hnone htenth, rfl, s.block.reader.keepFrom_cnt_val w hk,
      memRead1_shiftDown w k.val, posts_raise (s.block.reader.keepFrom w k) .unexpectedCommandId,
      changesOnlyReader_withReader_record s _ _⟩

end Sys2Proof.Machine

/-! PROOFS of the statements about RESET (70_reset_and_hazards.md). -/

namespace Sys2Proof.Machine

/-! ### RESET at a clock edge (70_reset_and_hazards.md R120) -/

/-- RESET is the one event of an edge with `rst` = 1: it overrides the others of its cycle (10_state.md R26). -/
theorem eventsAt_of_rst {p : Pins} (h : p.rst = true) (b : Block) : eventsAt p b = [.reset] := if_pos h

/-- An edge with `rst` = 1 is RESET, whatever the other pins are. -/
theorem clockEdge_of_rst {p : Pins} (h : p.rst = true) (s : State) :
    clockEdge p s = .next ({ s with block := Block.reset }.record [.reset]) := by
  rw [clockEdge, eventsAt_of_rst h, runEvents_cons_next exec_reset, runEvents]

/-- Settles O1: the next state holds the reset block, that of `State.reset`, so its elements are read off
`resetStateElementsAndOutputs`; an edge with `rst` = 1 has RESET as its one event. -/
theorem resetGivesEveryElementItsValue : Obligations.ResetGivesEveryElementItsValue := by
  intro s
  obtain ⟨hseek, hcnt, hbuf, hvalid, hkind, hpm25, hpm10, hbusy, hmode, hidx⟩ := resetStateElementsAndOutputs.1
  exact ⟨_, exec_reset, hseek, hcnt, hbuf, hvalid, hkind, hpm25, hpm10, hbusy, hmode, hidx, rfl, rfl, rfl,
    fun _ hrst => clockEdge_of_rst hrst s⟩

end Sys2Proof.Machine

/-! PROOFS of the statements about when an operation has a step (10_state.md section 5). -/

namespace Sys2Proof.Machine

/-! ### When an operation has a step (10_state.md R17, R21, R26) -/

/-- An operation of the reader is refused where its port is closed, and where the reader breaks its invariants. -/
theorem exec_of_readerSide {i : Instr} (hi : readerSide i = true) (s : State) :
    ∃ t, exec i s = if enabled i s.block then if s.block.reader.wf wire then .next t else .refused .unreachableState
      else .refused .notEnabled := by
  cases i with
  | rspData | rxByte | rxEof | rxFail | resTake => exact ⟨_, rfl⟩
  | _ => cases hi

/-- An operation of the framer is refused where its port is closed, and where the framer breaks its invariants. -/
theorem exec_of_framerSide {i : Instr} (hi : framerSide i = true) (s : State) :
    ∃ t, exec i s = if enabled i s.block then if s.block.framer.wf then .next t else .refused .unreachableState
      else .refused .notEnabled := by
  cases i with
  | cmdSleep | cmdWake | cmdReq | txTake => exact ⟨_, rfl⟩
  | _ => cases hi

/-- A function has no port, and its value on its domain (40_codec.md R70, R72). -/
theorem exec_of_codecSide {i : Instr} (hi : codecSide i = true) (s : State) :
    enabled i s.block = true ∧ (WellFormed i = true → ∃ t, exec i s = .next t) := by
  cases i with
  | checksum | u16le | build | tenths => exact ⟨rfl, fun _ => ⟨_, rfl⟩⟩
  | cmdbyte m n => exact ⟨rfl, fun hw => ⟨_, exec_cmdbyte m (of_decide_eq_true hw)⟩⟩
  | parse f => exact ⟨rfl, fun hw => ⟨_, exec_parse (by simpa [WellFormed] using hw)⟩⟩
  | _ => cases hi

/-- Every operation but RESET is of one agent, or a function. -/
theorem side_cases (i : Instr) : i = .reset ∨ readerSide i = true ∨ framerSide i = true ∨ codecSide i = true := by
  cases i <;> simp [codecSide, readerSide, framerSide]

theorem exec_reader_next {i : Instr} {s : State} (hi : readerSide i = true) (ho : enabled i s.block = true)
    (hwf : s.block.reader.wf wire = true) : ∃ t, exec i s = .next t := by
  obtain ⟨t, ht⟩ := exec_of_readerSide hi s
  exact ⟨t, by rw [ht, if_pos ho, if_pos hwf]⟩

theorem exec_framer_next {i : Instr} {s : State} (hi : framerSide i = true) (ho : enabled i s.block = true)
    (hwf : s.block.framer.wf = true) : ∃ t, exec i s = .next t := by
  obtain ⟨t, ht⟩ := exec_of_framerSide hi s
  exact ⟨t, by rw [ht, if_pos ho, if_pos hwf]⟩

/-- An operation of the reader happens only at an open port of a well-formed reader. -/
theorem enabled_of_exec_reader {i : Instr} {s t : State} (hi : readerSide i = true) (h : exec i s = .next t) :
    enabled i s.block = true ∧ s.block.reader.wf wire = true := by
  obtain ⟨u, hu⟩ := exec_of_readerSide hi s
  rw [hu] at h
  split at h
  case isTrue ho =>
    split at h
    case isTrue hwf => exact ⟨ho, hwf⟩
    case isFalse => cases h
  case isFalse => cases h

theorem Block.wf_iff {b : Block} : b.wf = true ↔ b.reader.wf wire = true ∧ b.framer.wf = true := by
  simp only [Block.wf, Bool.and_eq_true]

/-- Settles O5: the port of an operation is looked at first; RESET and the functions have none. -/
theorem closedPortsRefuse : Obligations.ClosedPortsRefuse := by
  intro i s hclosed
  rcases side_cases i with rfl | hi | hi | hi
  · cases hclosed
  · obtain ⟨t, ht⟩ := exec_of_readerSide hi s
    rw [ht, hclosed]
    rfl
  · obtain ⟨t, ht⟩ := exec_of_framerSide hi s
    rw [ht, hclosed]
    rfl
  · rw [(exec_of_codecSide hi s).1] at hclosed
    cases hclosed

/-- Settles O6: behind an open port only the agent's invariants stand in the way, and before a function its domain. -/
theorem enabledOperationsComplete : Obligations.EnabledOperationsComplete := by
  intro i s hwf hoperands hopen
  obtain ⟨hr, hf⟩ := Block.wf_iff.1 hwf
  rcases side_cases i with rfl | hi | hi | hi
  · exact ⟨_, exec_reset⟩
  · exact exec_reader_next hi hopen hr
  · exact exec_framer_next hi hopen hf
  · exact (exec_of_codecSide hi s).2 hoperands

/-- Settles O7: behind an open port the agent's invariants are looked at. -/
theorem unreachableStatesHaveNoSteps : Obligations.UnreachableStatesHaveNoSteps := by
  intro i s hopen
  constructor
  · intro hi hbroken
    obtain ⟨t, ht⟩ := exec_of_readerSide hi s
    rw [ht, if_pos hopen, hbroken]
    rfl
  · intro hi hbroken
    obtain ⟨t, ht⟩ := exec_of_framerSide hi s
    rw [ht, if_pos hopen, hbroken]
    rfl

end Sys2Proof.Machine

/-! PROOFS of the statements about the invariants that every step keeps (10_state.md, 20_memory.md section 1). -/

namespace Sys2Proof.Machine

/-! ### Events of the trace (30_encoding.md R64) -/

section Apply

variable {k : WireConstants} {b b' : Block} {x : TraceItem}

/-- Everything one event of a trace can do to the block, where it is enabled. -/
theorem TraceItem.apply_cases (h : x.apply k b = some b') :
    (x = .reset ∧ b' = Block.reset) ∨
    (∃ e : RxEvent, x = e.item ∧ b.reader.rxReady = true ∧ b' = ⟨b.reader.accept k e, b.framer⟩) ∨
    (x = .take b.reader.result ∧ b.reader.resValid = true ∧ b' = ⟨b.reader.takeResult, b.framer⟩) ∨
    (∃ m, x = .cmdReq m ∧ b.framer.cmdReady = true ∧ b' = ⟨b.reader, b.framer.request m⟩) ∨
    (x = .tx (b.framer.txWord k) ∧ b.framer.txBusy = true ∧ b' = ⟨b.reader, b.framer.takeByte⟩) := by
  cases x with
  | reset => exact .inl ⟨rfl, (Option.some.inj h).symm⟩
  | rxByte v =>
    obtain ⟨ho, hb⟩ := Option.ite_none_right_eq_some.1 h
    exact .inr (.inl ⟨.byte v, rfl, ho, (Option.some.inj hb).symm⟩)
  | rxEof =>
    obtain ⟨ho, hb⟩ := Option.ite_none_right_eq_some.1 h
    exact .inr (.inl ⟨.eof, rfl, ho, (Option.some.inj hb).symm⟩)
  | rxFail =>
    obtain ⟨ho, hb⟩ := Option.ite_none_right_eq_some.1 h
    exact .inr (.inl ⟨.fail, rfl, ho, (Option.some.inj hb).symm⟩)
  | take r =>
    obtain ⟨⟨hv, rfl⟩, hb⟩ := Option.ite_none_right_eq_some.1 h
    exact .inr (.inr (.inl ⟨rfl, hv, (Option.some.inj hb).symm⟩))
  | cmdReq m =>
    obtain ⟨ho, hb⟩ := Option.ite_none_right_eq_some.1 h
    exact .inr (.inr (.inr (.inl ⟨m, rfl, ho, (Option.some.inj hb).symm⟩)))
  | tx w =>
    obtain ⟨⟨hbusy, rfl⟩, hb⟩ := Option.ite_none_right_eq_some.1 h
    exact .inr (.inr (.inr (.inr ⟨rfl, hbusy, (Option.some.inj hb).symm⟩)))

/-- An open port's RX event replays. -/
theorem RxEvent.item_apply (e : RxEvent) (ho : b.reader.rxReady = true) :
    e.item.apply k b = some ⟨b.reader.accept k e, b.framer⟩ := by
  cases e <;> simp [RxEvent.item, TraceItem.apply, ho]

end Apply

/-- What every event keeps of a block and the trace that led to it, a series of events keeps. -/
theorem foldlM_apply_keeps {k : WireConstants} {P : Block → List TraceItem → Prop}
    (hP : ∀ {b x b' tr}, P b tr → x.apply k b = some b' → P b' (tr ++ [x]))
    {items : List TraceItem} {b b' : Block} {tr : List TraceItem} (hb : P b tr)
    (h : items.foldlM (TraceItem.apply k) b = some b') : P b' (tr ++ items) := by
  induction items generalizing b tr with
  | nil =>
    cases h
    rwa [List.append_nil]
  | cons x xs ih =>
    rw [List.foldlM_cons] at h
    obtain ⟨c, hx, hxs⟩ := Option.bind_eq_some_iff.1 h
    rw [List.append_cons]
    exact ih (hP hb hx) hxs

/-- What an operation adds to the trace replays from the block before it to the block after it: a whole frame or a
delivered response is no more than the port events it expands to (30_encoding.md R65). -/
theorem exec_replays {i : Instr} {s t : State} (h : exec i s = .next t) :
    ∃ items, t.trace = s.trace ++ items ∧ items.foldlM (TraceItem.apply wire) s.block = some t.block := by
  rcases exec_cases h with ⟨-, rfl⟩ | ⟨e, -, ho, -, rfl⟩ | ⟨_, _, _, _, _, _, _, used, rest, -, -, -, -, hrest, rfl⟩ |
    ⟨-, hv, -, rfl⟩ | ⟨m, -, ho, -, rfl⟩ | ⟨-, hb, -, rfl⟩ | ⟨m, -, ho, -, rfl⟩ | ⟨-, v, rfl⟩
  · exact ⟨[.reset], rfl, rfl⟩
  · exact ⟨[e.item], rfl, by simp [e.item_apply ho, State.withReader]⟩
  · refine ⟨used.map .rxByte, rfl, ?_⟩
    have hr := replay_deliver wire s.block.framer (used ++ rest) s.block.reader
    rwa [hrest, List.length_append, Nat.add_sub_cancel, List.take_left] at hr
  · exact ⟨[.take s.block.reader.result], rfl, by simp [TraceItem.apply, hv, State.withReader]⟩
  · exact ⟨[.cmdReq m], rfl, by simp [TraceItem.apply, ho, State.withFramer]⟩
  · exact ⟨[.tx (s.block.framer.txWord wire)], rfl, by simp [TraceItem.apply, hb, State.withFramer]⟩
  · exact ⟨_, rfl, replay_wholeFrame wire s.block.reader m ho⟩
  · exact ⟨[], (List.append_nil _).symm, rfl⟩

section Keeps

variable {P : Block → List TraceItem → Prop}

theorem exec_keeps (hP : ∀ {b x b' tr}, P b tr → x.apply wire b = some b' → P b' (tr ++ [x])) {i : Instr} {s t : State}
    (hs : P s.block s.trace) (h : exec i s = .next t) : P t.block t.trace := by
  obtain ⟨items, htrace, hblock⟩ := exec_replays h
  rw [htrace]
  exact foldlM_apply_keeps hP hs hblock

/-- What every operation keeps of the block and the trace, every step keeps: it runs an operation or passes a word by. -/
theorem step_keeps_of_exec (hP : ∀ {i : Instr} {s t : State}, P s.block s.trace → exec i s = .next t → P t.block t.trace)
    {s t : State} (hs : P s.block s.trace) (h : step s = .next t) : P t.block t.trace := by
  obtain ⟨os, rfl | ⟨i, hi⟩⟩ := step_next h
  · exact hs
  · exact hP (s := s.withOffers os) hs hi

/-- What every event of the trace keeps, every step keeps. -/
theorem step_keeps (hP : ∀ {b x b' tr}, P b tr → x.apply wire b = some b' → P b' (tr ++ [x])) {s t : State}
    (hs : P s.block s.trace) (h : step s = .next t) : P t.block t.trace :=
  step_keeps_of_exec (exec_keeps hP) hs h

end Keeps

/-! ### The invariants of the block (10_state.md R17, R21) -/

/-- Each event of the trace keeps the invariants of its own agent and leaves the other agent alone. -/
theorem TraceItem.apply_keeps_wf {k : WireConstants} {b b' : Block} {x : TraceItem} (h : x.apply k b = some b') :
    (b.reader.wf k = true → b'.reader.wf k = true) ∧ (b.framer.wf = true → b'.framer.wf = true) := by
  rcases TraceItem.apply_cases h with ⟨-, rfl⟩ | ⟨e, -, ho, rfl⟩ | ⟨-, -, rfl⟩ | ⟨m, -, -, rfl⟩ | ⟨-, hbusy, rfl⟩
  · exact ⟨fun _ => Reader.wf_reset k, fun _ => Framer.wf_reset⟩
  · exact ⟨Reader.wf_accept e ho, id⟩
  · exact ⟨Reader.wf_takeResult, id⟩
  · exact ⟨id, fun _ => Framer.wf_request m b.framer⟩
  · exact ⟨id, fun _ => Framer.wf_takeByte hbusy⟩

theorem Block.wf_apply {b b' : Block} {x : TraceItem} (hb : b.wf = true) (h : x.apply wire b = some b') :
    b'.wf = true := by
  obtain ⟨hr, hf⟩ := Block.wf_iff.1 hb
  obtain ⟨hkr, hkf⟩ := TraceItem.apply_keeps_wf h
  exact Block.wf_iff.2 ⟨hkr hr, hkf hf⟩

/-- Settles O46: each event of the trace keeps the invariants of both agents. -/
theorem stepKeepsTheBlockWellFormed : Obligations.StepKeepsTheBlockWellFormed := fun _ _ hwf h =>
  step_keeps (P := fun b _ => b.wf = true) Block.wf_apply hwf h

/-! ### The trace leads to the block (30_encoding.md R64) -/

theorem replay_append_singleton {k : WireConstants} {tr : List TraceItem} {x : TraceItem} {b b' : Block}
    (hb : replay k tr = some b) (h : x.apply k b = some b') : replay k (tr ++ [x]) = some b' := by
  rw [replay] at hb ⊢
  rw [List.foldlM_append, hb]
  simpa using h

/-- Settles O47: what an operation adds to the trace replays event by event. -/
theorem stepKeepsTheTraceReplayable : Obligations.StepKeepsTheTraceReplayable := fun _ _ hleads h =>
  step_keeps (P := fun b tr => replay wire tr = some b) replay_append_singleton hleads h

/-! ### TXS is the requested frames (20_memory.md R33, R44 c) -/

/-- The words transmitted since RESET, with those left of the frame in emission, are the requested frames in order. -/
def TxsFramed (b : Block) (tr : List TraceItem) : Prop :=
  txs (sinceReset tr) ++ b.framer.remaining wire = (requests (sinceReset tr)).flatMap (frameWords wire)

theorem State.txsIsFrames_iff {s : State} : s.TxsIsFrames ↔ TxsFramed s.block s.trace := Iff.rfl

theorem Framer.remaining_of_idle (k : WireConstants) {f : Framer} (h : f.txBusy = false) : f.remaining k = [] := by
  simp [Framer.remaining, h]

theorem Framer.remaining_request (k : WireConstants) (m : Mode) (f : Framer) :
    (f.request m).remaining k = frameWords k m := rfl

/-- A reader's event is in neither TXS nor the requests. -/
theorem TxsFramed.of_reader {b : Block} {tr : List TraceItem} (h : TxsFramed b tr) (r : Reader) {x : TraceItem}
    (hx : x ≠ .reset) (htxs : txs [x] = []) (hreq : requests [x] = []) : TxsFramed ⟨r, b.framer⟩ (tr ++ [x]) := by
  rw [TxsFramed, sinceReset_append (by simp [hx.symm]), txs_append, requests_append, htxs, hreq, List.append_nil,
    List.append_nil]
  exact h

theorem TxsFramed.apply {b b' : Block} {tr : List TraceItem} {x : TraceItem} (hb : TxsFramed b tr)
    (h : x.apply wire b = some b') : TxsFramed b' (tr ++ [x]) := by
  rcases TraceItem.apply_cases h with ⟨rfl, rfl⟩ | ⟨e, rfl, -, rfl⟩ | ⟨rfl, -, rfl⟩ | ⟨m, rfl, ho, rfl⟩ | ⟨rfl, hbusy, rfl⟩
  · rw [TxsFramed, sinceReset_append_reset]
    rfl
  · exact hb.of_reader _ (by cases e <;> nofun) (by cases e <;> rfl) (by cases e <;> rfl)
  · exact hb.of_reader _ nofun rfl rfl
  · have hidle : b.framer.remaining wire = [] := Framer.remaining_of_idle wire (by simpa [Framer.cmdReady] using ho)
    rw [TxsFramed, hidle, List.append_nil] at hb
    rw [TxsFramed, sinceReset_append (by simp), txs_append, requests_append, List.flatMap_append, ← hb,
      Framer.remaining_request]
    simp [txs, requests]
  · rw [TxsFramed, Framer.remaining_takeByte hbusy] at hb
    rw [TxsFramed, sinceReset_append (by simp), txs_append, requests_append]
    simpa [txs, requests] using hb

/-- Settles O48: a request adds a frame to both sides where none is in emission, and a take moves one word of it. -/
theorem stepKeepsTxsTheRequestedFrames : Obligations.StepKeepsTxsTheRequestedFrames := fun _ _ hframes h =>
  State.txsIsFrames_iff.2 (step_keeps (P := TxsFramed) TxsFramed.apply (State.txsIsFrames_iff.1 hframes) h)

/-! ### The candidate ends RXS (20_memory.md R32) -/

/-- The valid bytes of BUF. -/
def Reader.collected (r : Reader) : List Byte := r.buf.toList.take r.cnt.val

/-- The candidate in BUF is the end of the bytes accepted since RESET. -/
def CandidateAtEnd (b : Block) (tr : List TraceItem) : Prop := b.reader.collected <:+ rxs (sinceReset tr)

theorem State.candidateEndsRxs_iff {s : State} : s.CandidateEndsRxs ↔ CandidateAtEnd s.block s.trace := Iff.rfl

theorem Reader.collected_of_empty {r : Reader} (h : r.cnt = 0) : r.collected = [] := by
  simp [Reader.collected, h]

/-- An empty candidate ends any stream. -/
theorem Reader.collected_suffix_of_empty {r : Reader} (h : r.cnt = 0) (bs : List Byte) : r.collected <:+ bs := by
  rw [Reader.collected_of_empty h]
  exact List.nil_suffix

/-- The bytes up to and with one just written. -/
theorem take_memWrite1 (buf : Vector Byte 10) (i : Fin 10) (b : Byte) :
    (memWrite1 buf i b).toList.take (i.val + 1) = buf.toList.take i.val ++ [b] := by
  have hlt : i.val < (memWrite1 buf i b).toList.length := by simp
  rw [List.take_succ_eq_append_getElem hlt]
  simp [memWrite1, Vector.toList_set, List.take_set_of_le]

/-- A byte stored at offset CNT goes to the end of the candidate. -/
theorem Reader.collected_store (r : Reader) (b : Byte) {c : Fin 10} (hc : c.val = r.cnt.val + 1) :
    (r.store r.cnt b c).collected = r.collected ++ [b] := by
  rw [Reader.collected, Reader.store_buf, Reader.store_cnt, hc, take_memWrite1, Reader.collected]

/-- The bytes that a re-scan hit keeps are the end of the window (42_stream_reader.md R88). -/
theorem Reader.collected_keepFrom (r : Reader) (w : Vector Byte 10) {i : Fin 10} (hi : 1 ≤ i.val) :
    (r.keepFrom w i).collected = w.toList.drop i.val := by
  rw [Reader.collected, r.keepFrom_cnt_val w hi]
  apply List.ext_getElem
  · simp
  · intro n h1 h2
    have hn : n + i.val < 10 := by simp at h2; omega
    simp [shiftDown, hn, Nat.add_comm]

/-- The window that a tenth byte completes is the candidate and that byte. -/
theorem Reader.toList_window {r : Reader} (hc : r.cnt.val = 9) (b : Byte) :
    (window r.buf b).toList = r.collected ++ [b] := by
  have htake := take_memWrite1 r.buf 9 b
  rw [List.take_of_length_le (by simp)] at htake
  rw [window, htake, Reader.collected, hc]
  rfl

/-- The re-scan works on the copy in BUF: what a tenth byte leaves of the candidate is the end of the window. -/
theorem Reader.collected_complete (k : WireConstants) {r : Reader} (hc : r.cnt.val = 9) (b : Byte) :
    (r.complete k b).collected <:+ r.collected ++ [b] := by
  rcases r.complete_cases k b with ⟨_, _, -, h⟩ | ⟨-, h⟩ | ⟨-, h⟩ | ⟨-, -, h⟩ | ⟨i, -, hi, h⟩ <;> rw [h]
  · exact Reader.collected_suffix_of_empty rfl _
  · exact Reader.collected_suffix_of_empty rfl _
  · exact Reader.collected_suffix_of_empty rfl _
  · exact Reader.collected_suffix_of_empty rfl _
  · have hkeep := r.collected_keepFrom (window r.buf b) (rescan_eq_some hi).1
    rw [← Reader.toList_window hc b]
    exact hkeep ▸ List.drop_suffix i.val _

/-- A byte accepted is dropped, or kept in order at the end of the candidate. -/
theorem Reader.collected_rxByte {k : WireConstants} {r : Reader} (b : Byte) (ho : r.rxReady = true) (hwf : r.wf k = true) :
    (r.rxByte k b).collected <:+ r.collected ++ [b] := by
  have hseek : r.rstate = .seek → r.cnt = 0 := (Reader.wf_iff.1 hwf).1
  rcases Reader.rxByte_cases (k := k) b ho with ⟨hs, -, h⟩ | ⟨hs, -, h⟩ | ⟨-, hle, h⟩ | ⟨-, hc, h⟩ <;> rw [h]
  · exact Reader.collected_suffix_of_empty (hseek hs) _
  · have hstore := r.collected_store b (c := 1) (by simp [hseek hs])
    rw [hseek hs] at hstore
    exact hstore ▸ List.suffix_rfl
  · exact r.collected_store b (c := ⟨r.cnt.val + 1, by omega⟩) rfl ▸ List.suffix_rfl
  · exact Reader.collected_complete k hc b

theorem Reader.collected_takeResult (r : Reader) : r.takeResult.collected = r.collected := by
  by_cases h : r.rstate = .closed
  · rw [Reader.takeResult_of_closed h]
  · rw [Reader.takeResult_of_open h]
    rfl

/-- An event other than RESET that leaves BUF and CNT alone and is not in RXS. -/
theorem CandidateAtEnd.append {b b' : Block} {tr items : List TraceItem} (h : CandidateAtEnd b tr)
    (hcol : b'.reader.collected = b.reader.collected) (hreset : .reset ∉ items) (hrxs : rxs items = []) :
    CandidateAtEnd b' (tr ++ items) := by
  rw [CandidateAtEnd, sinceReset_append hreset, rxs_append, hrxs, List.append_nil, hcol]
  exact h

theorem CandidateAtEnd.reset (tr : List TraceItem) : CandidateAtEnd Block.reset (tr ++ [.reset]) :=
  Reader.collected_suffix_of_empty (r := Reader.reset) rfl _

theorem CandidateAtEnd.apply {b b' : Block} {tr : List TraceItem} {x : TraceItem} (hwf : b.reader.wf wire = true)
    (hb : CandidateAtEnd b tr) (h : x.apply wire b = some b') : CandidateAtEnd b' (tr ++ [x]) := by
  rcases TraceItem.apply_cases h with ⟨rfl, rfl⟩ | ⟨e, rfl, ho, rfl⟩ | ⟨rfl, -, rfl⟩ | ⟨m, rfl, -, rfl⟩ | ⟨rfl, -, rfl⟩
  · exact CandidateAtEnd.reset tr
  · cases e with
    | byte v =>
      rw [CandidateAtEnd, sinceReset_append (by simp [RxEvent.item]), rxs_append]
      obtain ⟨pre, hpre⟩ := hb
      exact (Reader.collected_rxByte v ho hwf).trans ⟨pre, by rw [← List.append_assoc, hpre]; rfl⟩
    | eof => exact Reader.collected_suffix_of_empty (r := (b.reader.clear .closed).raise .eof) rfl _
    | fail => exact Reader.collected_suffix_of_empty (r := (b.reader.clear .closed).raise .ioFailure) rfl _
  · exact hb.append b.reader.collected_takeResult (by simp) rfl
  · exact hb.append rfl (by simp) rfl
  · exact hb.append rfl (by simp) rfl

theorem exec_keeps_candidateAtEnd {i : Instr} {s t : State} (hs : CandidateAtEnd s.block s.trace) (h : exec i s = .next t) :
    CandidateAtEnd t.block t.trace := by
  cases hr : readerSide i with
  | true =>
    have hkeep := exec_keeps (P := fun b tr => b.reader.wf wire = true ∧ CandidateAtEnd b tr)
      (fun hb hx => ⟨(TraceItem.apply_keeps_wf hx).1 hb.1, hb.2.apply hb.1 hx⟩) ⟨(enabled_of_exec_reader hr h).2, hs⟩ h
    exact hkeep.2
  | false =>
    by_cases hreset : i = .reset
    · subst hreset
      cases h
      exact CandidateAtEnd.reset s.trace
    · cases hf : framerSide i with
      | true =>
        obtain ⟨items, ht, -, hno, hrxs, -⟩ := exec_framer_local hf h rfl
        rw [ht]
        exact hs.append rfl hno hrxs
      | false =>
        obtain ⟨v, rfl⟩ := exec_codec_local hr hf hreset h
        exact hs

/-- Settles O49: a byte accepted is dropped or kept in order, and no other event touches the candidate but to empty it. -/
theorem stepKeepsTheCandidateOfTheStream : Obligations.StepKeepsTheCandidateOfTheStream := fun _ _ hend h =>
  State.candidateEndsRxs_iff.2
    (step_keeps_of_exec (P := CandidateAtEnd) exec_keeps_candidateAtEnd (State.candidateEndsRxs_iff.1 hend) h)

/-- Settles O3: the empty trace leads to the reset block, which has no frame in emission and no candidate. -/
theorem resetMeetsTheInvariants : Obligations.ResetMeetsTheInvariants :=
  ⟨Block.wf_iff.2 ⟨Reader.wf_reset wire, Framer.wf_reset⟩, rfl, rfl,
    Reader.collected_suffix_of_empty (r := Reader.reset) rfl []⟩

end Sys2Proof.Machine

/-! PROOFS of the statements about decoding and encoding (30_encoding.md section 4). -/

namespace Sys2Proof

/-! ### Words at the ports (30_encoding.md R59 to R61, R66) -/

/-- The bytes of a port word are the ones it is written as. -/
theorem wordOffer_of_portWord {n : Nat} {bytes : List Byte} {w : BitVec n} (c : Channel) (h : portWord n bytes = .ok w) :
    wordOffer c w = ⟨c, bytes⟩ := by
  rw [wordOffer, ← bytes_of_portWord h]

theorem exceptMap_eq_ok {ε α β : Type} {f : α → β} {x : Except ε α} {b : β} (h : x.map f = .ok b) :
    ∃ a, x = .ok a ∧ f a = b := by
  cases x with
  | error => cases h
  | ok a => exact ⟨a, rfl, Except.ok.inj h⟩

theorem exceptBind_eq_ok {ε α β : Type} {f : α → Except ε β} {x : Except ε α} {b : β} (h : x.bind f = .ok b) :
    ∃ a, x = .ok a ∧ f a = .ok b := by
  cases x with
  | error => cases h
  | ok a => exact ⟨a, rfl, h⟩

/-- An RX word is a byte's with kind 0, or a terminator's. -/
theorem rxEvent_cases (w : BitVec 10) :
    (∃ b : Byte, rxEvent w = .rxByte b ∧ (0 : BitVec 2) ++ b = w) ∨ rxEvent w = .rxEof ∨ rxEvent w = .rxFail := by
  have hw : w.extractLsb' 8 2 ++ w.extractLsb' 0 8 = w := BitVec.extractLsb'_append_extractLsb'
  have he := rxEvent_append (w.extractLsb' 8 2) (w.extractLsb' 0 8)
  rw [hw] at he
  split at he
  case isTrue h0 => exact .inl ⟨_, he, by rw [← h0, hw]⟩
  case isFalse => exact .inr (by split at he <;> simp [he])

/-- The ROM addresses that are CMDBYTE are those of its domain. -/
theorem decodeRomAddress_ok {w : BitVec 6} {i : Instr} (h : decodeRomAddress w = .ok i) :
    ∃ m n, i = .cmdbyte m n ∧ n.toNat < 19 ∧ m.bit ++ n = w := by
  unfold decodeRomAddress at h
  dsimp only at h
  split at h
  case isTrue hn =>
    cases h
    exact ⟨_, _, rfl, hn, by rw [Mode.bit_ofBit]; exact BitVec.extractLsb'_append_extractLsb'⟩
  case isFalse => cases h

theorem decodeRomAddress_append (m : Mode) {n : BitVec 5} (h : n.toNat < 19) :
    decodeRomAddress (m.bit ++ n) = .ok (.cmdbyte m n) := by
  have hm : (m.bit ++ n).extractLsb' 5 1 = m.bit := BitVec.extractLsb'_append_eq_left
  have hn : (m.bit ++ n).extractLsb' 0 5 = n := BitVec.extractLsb'_append_eq_right
  simp only [decodeRomAddress, hm, hn, if_pos h, Mode.ofBit_bit]

/-! ### Frames and windows (30_encoding.md R54 to R56; 40_codec.md R72) -/

/-- The inbound frames that are RSP.DATA are the response frames with the right checksum byte. -/
theorem decodeFrameIn_ok {bytes : List Byte} {i : Instr} (h : decodeFrameIn bytes = .ok i) :
    ∃ a A b B x y c, i = .rspData a A b B x y c ∧ WellFormed i = true ∧
      (Machine.responseFrame Machine.wire a A b B x y c).toList = bytes := by
  unfold decodeFrameIn at h
  split at h
  case h_1 hd cmd _ _ _ _ _ _ _ tl =>
    split_ifs at h with hends hsum
    cases h
    obtain ⟨⟨hhead, hid⟩, htail⟩ :
        (hd = Machine.wire.head ∧ cmd = Machine.wire.rspId) ∧ tl = Machine.wire.tail := by simpa using hends
    exact ⟨_, _, _, _, _, _, _, rfl, hsum, by simp [Machine.responseFrame, hhead, hid, htail]⟩
  case h_2 => cases h

theorem decodeFrameIn_responseFrame {a A b B x y c : Byte} (h : WellFormed (.rspData a A b B x y c) = true) :
    decodeFrameIn (Machine.responseFrame Machine.wire a A b B x y c).toList = .ok (.rspData a A b B x y c) := by
  simp [Machine.responseFrame, decodeFrameIn, h]

/-- The outbound frames are the two that the block can send. -/
theorem decodeFrameOut_ok {bytes : List Byte} {i : Instr} (h : decodeFrameOut bytes = .ok i) :
    i = .cmdSleep ∧ (Machine.build Machine.wire .sleep).toList = bytes ∨
      i = .cmdWake ∧ (Machine.build Machine.wire .wake).toList = bytes := by
  unfold decodeFrameOut at h
  split_ifs at h with hlength hsleep hwake
  · exact .inl ⟨(Except.ok.inj h).symm, hsleep.symm⟩
  · exact .inr ⟨(Except.ok.inj h).symm, hwake.symm⟩

/-- The two command frames differ, at the mode byte. -/
theorem build_wake_ne_sleep : (Machine.build Machine.wire .wake).toList ≠ (Machine.build Machine.wire .sleep).toList := by
  decide

theorem decodeFrameOut_sleep : decodeFrameOut (Machine.build Machine.wire .sleep).toList = .ok .cmdSleep := by
  simp [decodeFrameOut]

theorem decodeFrameOut_wake : decodeFrameOut (Machine.build Machine.wire .wake).toList = .ok .cmdWake := by
  rw [decodeFrameOut, if_neg (by simp), if_neg build_wake_ne_sleep, if_pos rfl]

theorem decodeWindow_ok {bytes : List Byte} {i : Instr} (h : decodeWindow bytes = .ok i) :
    ∃ f, i = .parse f ∧ WellFormed i = true ∧ f.toList = bytes := by
  unfold decodeWindow at h
  dsimp only at h
  split_ifs at h with hlength hhead
  cases h
  exact ⟨_, rfl, hhead, rfl⟩

theorem decodeWindow_toList {f : Vector Byte 10} (h : WellFormed (.parse f) = true) :
    decodeWindow f.toList = .ok (.parse f) := by
  have hlength : f.toList.length = 10 := f.length_toList
  have hf : (⟨f.toList.toArray, by simp⟩ : Vector Byte 10) = f := Vector.toArray_inj.1 (Array.toArray_toList ..)
  simp only [decodeWindow, dif_pos hlength, hf, if_pos h]

/-! ### The decoder and the encoder -/

/-- Settles O50: each operand is read back from the field of the word in which it stands. -/
theorem decodeEncodeRoundTrip : Obligations.DecodeEncodeRoundTrip := by
  intro i hwf
  cases i with
  | rspData => exact decodeFrameIn_responseFrame hwf
  | cmdSleep => exact decodeFrameOut_sleep
  | cmdWake => exact decodeFrameOut_wake
  | reset => rfl
  | rxByte b => exact (decode_wordOffer_rx _).trans (congrArg Except.ok (rxEvent_append 0 b))
  | rxEof => rfl
  | rxFail => rfl
  | resTake => rfl
  | txTake => rfl
  | checksum => rfl
  | cmdReq m | build m => simp [encode, wordOffer, decode, portWord_wordBytes, Except.map]
  | u16le lo hi =>
    have hhi : (hi ++ lo).extractLsb' 8 8 = hi := BitVec.extractLsb'_append_eq_left
    have hlo : (hi ++ lo).extractLsb' 0 8 = lo := BitVec.extractLsb'_append_eq_right
    simp [encode, wordOffer, decode, portWord_wordBytes, Except.map, hhi, hlo]
  | cmdbyte m n =>
    have haddress := decodeRomAddress_append m (of_decide_eq_true hwf)
    simp [encode, wordOffer, decode, portWord_wordBytes, Except.bind, haddress]
  | parse => exact decodeWindow_toList hwf
  | tenths r => simp [encode, wordOffer, decode, portWord_wordBytes, Except.map]

/-- Settles O51: on each channel the bytes are the word that the operation is written as. -/
theorem eachWordHasOneMeaning : Obligations.EachWordHasOneMeaning := by
  intro ⟨c, bytes⟩ i h
  cases c with
  | rst =>
    obtain ⟨w, hw, hi⟩ := exceptBind_eq_ok h
    split_ifs at hi with h1
    cases hi
    subst h1
    exact ⟨rfl, fun _ _ _ _ => wordOffer_of_portWord .rst hw⟩
  | rx =>
    obtain ⟨w, hw, rfl⟩ := exceptMap_eq_ok h
    rcases rxEvent_cases w with ⟨b, he, rfl⟩ | he | he
    · rw [he]
      exact ⟨rfl, fun _ _ _ _ => wordOffer_of_portWord .rx hw⟩
    · rw [he]
      exact ⟨rfl, fun hne => absurd rfl hne⟩
    · rw [he]
      exact ⟨rfl, fun _ hne => absurd rfl hne⟩
  | res =>
    obtain ⟨w, -, rfl⟩ := exceptMap_eq_ok h
    exact ⟨rfl, fun _ _ hne => absurd rfl hne⟩
  | cmd =>
    obtain ⟨w, hw, rfl⟩ := exceptMap_eq_ok h
    exact ⟨rfl, fun _ _ _ _ => (congrArg _ (Mode.bit_ofBit w)).trans (wordOffer_of_portWord .cmd hw)⟩
  | tx =>
    obtain ⟨w, -, rfl⟩ := exceptMap_eq_ok h
    exact ⟨rfl, fun _ _ _ hne => absurd rfl hne⟩
  | frameIn =>
    obtain ⟨a, A, b, B, x, y, s, rfl, hwf, hbytes⟩ := decodeFrameIn_ok h
    exact ⟨hwf, fun _ _ _ _ => congrArg _ hbytes⟩
  | frameOut =>
    obtain ⟨rfl, hbytes⟩ | ⟨rfl, hbytes⟩ := decodeFrameOut_ok h
    · exact ⟨rfl, fun _ _ _ _ => congrArg _ hbytes⟩
    · exact ⟨rfl, fun _ _ _ _ => congrArg _ hbytes⟩
  | checksum =>
    cases h
    exact ⟨rfl, fun _ _ _ _ => rfl⟩
  | u16le =>
    obtain ⟨w, hw, rfl⟩ := exceptMap_eq_ok h
    have hfields : w.extractLsb' 8 8 ++ w.extractLsb' 0 8 = w := BitVec.extractLsb'_append_extractLsb'
    exact ⟨rfl, fun _ _ _ _ => (congrArg _ hfields).trans (wordOffer_of_portWord .u16le hw)⟩
  | cmdbyte =>
    obtain ⟨w, hw, hi⟩ := exceptBind_eq_ok h
    obtain ⟨m, n, rfl, hn, rfl⟩ := decodeRomAddress_ok hi
    exact ⟨decide_eq_true hn, fun _ _ _ _ => wordOffer_of_portWord .cmdbyte hw⟩
  | build =>
    obtain ⟨w, hw, rfl⟩ := exceptMap_eq_ok h
    exact ⟨rfl, fun _ _ _ _ => (congrArg _ (Mode.bit_ofBit w)).trans (wordOffer_of_portWord .build hw)⟩
  | parse =>
    obtain ⟨f, rfl, hwf, hbytes⟩ := decodeWindow_ok h
    exact ⟨hwf, fun _ _ _ _ => congrArg _ hbytes⟩
  | tenths =>
    obtain ⟨w, hw, rfl⟩ := exceptMap_eq_ok h
    exact ⟨rfl, fun _ _ _ _ => wordOffer_of_portWord .tenths hw⟩

/-- Settles O53: words written out, the source's example frame and the wake frame among them. -/
theorem specWordsDecode : Obligations.SpecWordsDecode := by
  unfold Obligations.SpecWordsDecode
  decide

/-! ### The words the block drives (30_encoding.md R60, R61) -/

/-- Settles O54: a field is cut out of the concatenation at the place where it was put in. -/
theorem outboundWordsHaveTheirFields : Obligations.OutboundWordsHaveTheirFields := by
  refine ⟨fun r => ⟨?_, ?_, BitVec.extractLsb'_append_eq_right⟩,
    fun w => ⟨BitVec.extractLsb'_append_eq_right, ?_⟩, rfl, rfl, rfl, rfl, rfl, rfl, rfl⟩
  · rw [Machine.Result.word, BitVec.extractLsb'_append_eq_of_le (by decide)]
    exact BitVec.extractLsb'_append_eq_left
  · rw [Machine.Result.word, BitVec.extractLsb'_append_eq_of_le (by decide)]
    exact BitVec.extractLsb'_append_eq_right
  · rw [Machine.TxWord.word, BitVec.getLsbD_append]
    simp

end Sys2Proof

/-! PROOFS of the statements about the two agents (10_state.md R13, R26; 20_memory.md section 6). -/

namespace Sys2Proof.Machine

/-! ### What an agent's operation leaves unchanged (10_state.md R13) -/

/-- Settles O34: an operation of an agent changes its own elements and adds events of its own to the trace. -/
theorem agentsWriteOnlyTheirOwn : Obligations.AgentsWriteOnlyTheirOwn := by
  intro i s t h
  refine ⟨fun hi => ?_, fun hi => ?_, fun hi => ?_⟩
  · obtain ⟨items, os, ht, -, -, htxs⟩ := exec_reader_local hi h rfl
    rw [ht]
    exact ⟨rfl, rfl, by simp [htxs]⟩
  · obtain ⟨items, ht, -, -, hrxs, -⟩ := exec_framer_local hi h rfl
    rw [ht]
    exact ⟨rfl, rfl, rfl, by simp [hrxs]⟩
  · simp only [codecSide, Bool.and_eq_true, Bool.not_eq_true', bne_iff_ne] at hi
    obtain ⟨⟨hr, hf⟩, hreset⟩ := hi
    obtain ⟨v, rfl⟩ := exec_codec_local hr hf hreset h
    exact ⟨rfl, rfl, rfl⟩

/-- What is no operation of the reader leaves it alone, but for RESET. -/
theorem reader_eq_of_exec {i : Instr} {s t : State} (hi : readerSide i = false) (hreset : i ≠ .reset)
    (h : exec i s = .next t) : t.block.reader = s.block.reader := by
  obtain ⟨-, hframer, hcodec⟩ := agentsWriteOnlyTheirOwn i s t h
  rcases side_cases i with he | hr | hf | hc
  · exact absurd he hreset
  · exact absurd hr (by simp [hi])
  · exact (hframer hf).1
  · exact congrArg Block.reader (hcodec hc).1

/-! ### The reader's two ports (42_stream_reader.md R83) -/

/-- The reader's operations but RES.TAKE stand behind `rx_ready`. -/
theorem enabled_of_rxSide {i : Instr} (hi : rxSide i = true) (b : Block) : enabled i b = b.reader.rxReady := by
  cases i with
  | rspData | rxByte | rxEof | rxFail => rfl
  | _ => cases hi

theorem rxSide_iff {i : Instr} : rxSide i = true ↔ readerSide i = true ∧ i ≠ .resTake := by
  simp only [rxSide, Bool.and_eq_true, bne_iff_ne]

/-- Settles O35: while a result waits the RX port is closed, so no reader operation but RES.TAKE happens. -/
theorem postedResultIsNeverOverwritten : Obligations.PostedResultIsNeverOverwritten := by
  intro i s t hposted htake hreset h
  cases hi : readerSide i with
  | false => exact reader_eq_of_exec hi hreset h
  | true =>
    have hopen := (enabled_of_exec_reader hi h).1
    rw [enabled_of_rxSide (rxSide_iff.2 ⟨hi, htake⟩), Reader.rxReady_iff, hposted] at hopen
    cases hopen.2

/-- Settles O37: in CLOSED the RX port is closed and RES.TAKE leaves the result posted. -/
theorem onlyResetLeavesClosed : Obligations.OnlyResetLeavesClosed := by
  intro i s t hclosed hreset h
  cases hi : readerSide i with
  | false => exact reader_eq_of_exec hi hreset h
  | true =>
    by_cases htake : i = .resTake
    · subst htake
      obtain ⟨-, -, rfl⟩ := readerEvent_next_iff.1 h
      exact Reader.takeResult_of_closed hclosed
    · have hopen := (enabled_of_exec_reader hi h).1
      rw [enabled_of_rxSide (rxSide_iff.2 ⟨hi, htake⟩), Reader.rxReady_iff] at hopen
      exact absurd hclosed hopen.1

/-- A byte that posts a result is the tenth of a window (42_stream_reader.md section 5, P4). -/
theorem Reader.tenth_of_rxByte_posts {k : WireConstants} {r : Reader} {b : Byte} (ho : r.rxReady = true)
    (h : (r.rxByte k b).resValid = true) : r.rstate = .frame ∧ r.cnt = 9 := by
  have hnone : r.resValid ≠ true := by simp [(r.rxReady_iff.1 ho).2]
  rcases Reader.rxByte_cases (k := k) b ho with ⟨-, -, he⟩ | ⟨-, -, he⟩ | ⟨-, hc, he⟩ | ⟨hs, hc, -⟩
  · exact absurd (by rwa [he] at h) hnone
  · exact absurd (by rwa [he] at h) hnone
  · exact absurd (by rwa [he] at h) hnone
  · exact ⟨hs, Fin.ext hc⟩

/-- Settles O36: of the reader's operations RES.TAKE posts nothing, and a byte only as the tenth. -/
theorem resultsComeOnlyFromThreeEvents : Obligations.ResultsComeOnlyFromThreeEvents := by
  intro i s t hnone h hposted
  have hother : readerSide i = false → i ≠ .reset → False := fun hi hreset => by
    rw [reader_eq_of_exec hi hreset h, hnone] at hposted
    cases hposted
  cases i with
  | rxEof => exact .inl rfl
  | rxFail => exact .inr (.inl rfl)
  | rspData a b c d e f g => exact .inr (.inr (.inr ⟨a, b, c, d, e, f, g, rfl⟩))
  | rxByte b =>
    obtain ⟨ho, -, rfl⟩ := readerEvent_next_iff.1 h
    exact .inr (.inr (.inl ⟨b, rfl, Reader.tenth_of_rxByte_posts ho hposted⟩))
  | resTake =>
    have hvalid := (enabled_of_exec_reader rfl h).1
    cases hnone.symm.trans hvalid
  | reset =>
    cases h
    cases hposted
  | _ => exact (hother rfl nofun).elim

/-! ### Operations of the two agents commute (10_state.md section 5) -/

/-- Where each of the two has a next state, each has one after the other. -/
theorem exec_commute {i j : Instr} {s t u : State} (hi : readerSide i = true) (hj : framerSide j = true)
    (ht : exec i s = .next t) (hu : exec j s = .next u) :
    ∃ v w, exec j t = .next v ∧ exec i u = .next w ∧ w.block = v.block ∧ w.offers = v.offers ∧ w.codec = v.codec := by
  have hframer : t.block.framer = s.block.framer := ((agentsWriteOnlyTheirOwn i s t ht).1 hi).1
  have hreader : u.block.reader = s.block.reader := ((agentsWriteOnlyTheirOwn j s u hu).2.1 hj).1
  obtain ⟨items, os, et, hw, -⟩ := exec_reader_local hi ht hreader
  obtain ⟨more, eu, hv, -⟩ := exec_framer_local hj hu hframer
  refine ⟨_, _, hv, hw, rfl, ?_, ?_⟩
  · have hoffers : u.offers = s.offers := by rw [eu]; rfl
    have hstay : t.offers = os ++ s.offers := by rw [et]; rfl
    exact (congrArg (os ++ ·) hoffers).trans hstay.symm
  · have hcodec : u.codec = s.codec := by rw [eu]; rfl
    have hstay : t.codec = s.codec := by rw [et]; rfl
    exact hcodec.trans hstay.symm

/-- Settles O38: each of the two has a next state already where the other has not happened yet. -/
theorem readerAndFramerEventsCommute : Obligations.ReaderAndFramerEventsCommute := by
  intro i j s t u hi hj
  constructor
  · intro ht hu
    have hframer : t.block.framer = s.block.framer := ((agentsWriteOnlyTheirOwn i s t ht).1 hi).1
    obtain ⟨_, -, hs, -⟩ := exec_framer_local hj hu hframer.symm
    obtain ⟨v, w, hv, hw, hsame⟩ := exec_commute hi hj ht hs
    cases hu.symm.trans hv
    exact ⟨_, w, hs, hw, hsame⟩
  · intro ht hu
    have hreader : t.block.reader = s.block.reader := ((agentsWriteOnlyTheirOwn j s t ht).2.1 hj).1
    obtain ⟨_, _, -, hs, -⟩ := exec_reader_local hi hu hreader.symm
    obtain ⟨v, w, hv, hw, hblock, hoffers, hcodec⟩ := exec_commute hi hj hs ht
    cases hu.symm.trans hw
    exact ⟨_, v, hs, hv, hblock.symm, hoffers.symm, hcodec.symm⟩

/-! ### Runs of one agent's operations (10_state.md R13; 41_command_framer.md R81 d) -/

/-- A run restricted to some operations keeps up with the whole run, where these operations keep up one by one and the others
do not matter. -/
theorem runEvents_filter {R : State → State → Prop} {p : Instr → Bool}
    (hkeep : ∀ {i s s' t}, p i = true → R s s' → exec i s = .next t → ∃ t', exec i s' = .next t' ∧ R t t')
    (hdrop : ∀ {i s s' t}, p i = false → R s s' → exec i s = .next t → R t s')
    {is : List Instr} {s s' t : State} (hR : R s s') (h : runEvents is s = .next t) :
    ∃ t', runEvents (is.filter p) s' = .next t' ∧ R t t' := by
  induction is generalizing s s' with
  | nil =>
    cases h
    exact ⟨s', rfl, hR⟩
  | cons i is ih =>
    obtain ⟨u, hu, hrun⟩ := runEvents_cons_inv h
    cases hp : p i with
    | true =>
      obtain ⟨u', hu', hR'⟩ := hkeep hp hR hu
      obtain ⟨t', ht', hRt⟩ := ih hR' hrun
      exact ⟨t', by rw [List.filter_cons_of_pos hp, runEvents_cons_next hu', ht'], hRt⟩
    | false =>
      rw [List.filter_cons_of_neg (by simp [hp])]
      exact ih (hdrop hp hR hu) hrun

/-- What is taken after some events depends on them by the number of RX events since RESET alone (00_scope.md R12). -/
theorem taken_append (n : Nat) (items : List TraceItem) :
    ∃ m, ∀ l, taken n (items ++ l) = taken n items ++ taken m l := by
  induction items generalizing n with
  | nil => exact ⟨n, fun _ => rfl⟩
  | cons x xs ih =>
    cases x with
    | reset => exact ih 0
    | rxByte | rxEof | rxFail => exact ih (n + 1)
    | cmdReq | tx => exact ih n
    | take r =>
      obtain ⟨m, hm⟩ := ih n
      exact ⟨m, fun l => congrArg ((r, n) :: ·) (hm l)⟩

/-- The two states agree on the reader, on the results taken so far, on the number of RX events since RESET and on RXS. -/
def ReaderAlike (s s' : State) : Prop :=
  s'.block.reader = s.block.reader ∧ (∀ l, taken 0 (s'.trace ++ l) = taken 0 (s.trace ++ l)) ∧ rxs s'.trace = rxs s.trace

/-- The two states agree on the framer and on TXS. -/
def FramerAlike (s s' : State) : Prop := s'.block.framer = s.block.framer ∧ txs s'.trace = txs s.trace

theorem ReaderAlike.keep {i : Instr} {s s' t : State} (hi : (readerSide i || i == .reset) = true) (hs : ReaderAlike s s')
    (h : exec i s = .next t) : ∃ t', exec i s' = .next t' ∧ ReaderAlike t t' := by
  obtain ⟨hreader, htaken, hrxs⟩ := hs
  have grow : ∀ items : List TraceItem, (∀ l, taken 0 (s'.trace ++ items ++ l) = taken 0 (s.trace ++ items ++ l)) ∧
      rxs (s'.trace ++ items) = rxs (s.trace ++ items) := fun items =>
    ⟨fun l => by simpa only [List.append_assoc] using htaken (items ++ l), by rw [rxs_append, rxs_append, hrxs]⟩
  rw [Bool.or_eq_true, beq_iff_eq] at hi
  rcases hi with hi | rfl
  · obtain ⟨items, os, ht, ht', -⟩ := exec_reader_local hi h hreader
    refine ⟨_, ht', rfl, ?_⟩
    rw [ht]
    exact grow items
  · cases h
    exact ⟨_, exec_reset, rfl, grow [.reset]⟩

theorem ReaderAlike.drop {i : Instr} {s s' t : State} (hi : (readerSide i || i == .reset) = false) (hs : ReaderAlike s s')
    (h : exec i s = .next t) : ReaderAlike t s' := by
  obtain ⟨hreader, htaken, hrxs⟩ := hs
  rw [Bool.or_eq_false_iff, beq_eq_false_iff_ne] at hi
  obtain ⟨hr, hreset⟩ := hi
  cases hf : framerSide i with
  | true =>
    obtain ⟨items, ht, -, -, hno, hskip⟩ := exec_framer_local hf h rfl
    rw [ht]
    refine ⟨hreader, fun l => ?_, by simp [hno, hrxs]⟩
    obtain ⟨m, hm⟩ := taken_append 0 s.trace
    simp only [State.record_trace, State.withFramer_trace, List.append_assoc, htaken l, hm, hskip]
  | false =>
    obtain ⟨v, rfl⟩ := exec_codec_local hr hf hreset h
    exact ⟨hreader, htaken, hrxs⟩

theorem FramerAlike.keep {i : Instr} {s s' t : State} (hi : (framerSide i || i == .reset) = true) (hs : FramerAlike s s')
    (h : exec i s = .next t) : ∃ t', exec i s' = .next t' ∧ FramerAlike t t' := by
  obtain ⟨hframer, htxs⟩ := hs
  have grow : ∀ items : List TraceItem, txs (s'.trace ++ items) = txs (s.trace ++ items) := fun items => by
    rw [txs_append, txs_append, htxs]
  rw [Bool.or_eq_true, beq_iff_eq] at hi
  rcases hi with hi | rfl
  · obtain ⟨items, ht, ht', -⟩ := exec_framer_local hi h hframer
    refine ⟨_, ht', rfl, ?_⟩
    rw [ht]
    exact grow items
  · cases h
    exact ⟨_, exec_reset, rfl, grow [.reset]⟩

theorem FramerAlike.drop {i : Instr} {s s' t : State} (hi : (framerSide i || i == .reset) = false) (hs : FramerAlike s s')
    (h : exec i s = .next t) : FramerAlike t s' := by
  obtain ⟨hframer, htxs⟩ := hs
  rw [Bool.or_eq_false_iff, beq_eq_false_iff_ne] at hi
  obtain ⟨hf, hreset⟩ := hi
  cases hr : readerSide i with
  | true =>
    obtain ⟨items, os, ht, -, -, hno⟩ := exec_reader_local hr h rfl
    rw [ht]
    exact ⟨hframer, by simp [hno, htxs]⟩
  | false =>
    obtain ⟨v, rfl⟩ := exec_codec_local hr hf hreset h
    exact ⟨hframer, htxs⟩

/-- Settles O39: each agent's run keeps up with the whole run, event by event. -/
theorem agentsSeeOnlyTheirOwnEvents : Obligations.AgentsSeeOnlyTheirOwnEvents := by
  intro is s t h
  constructor
  · obtain ⟨t', ht', hreader, htaken, hrxs⟩ :=
      runEvents_filter (R := ReaderAlike) ReaderAlike.keep ReaderAlike.drop ⟨rfl, fun _ => rfl, rfl⟩ h
    exact ⟨t', ht', hreader, by simpa using htaken [], hrxs⟩
  · exact runEvents_filter (R := FramerAlike) FramerAlike.keep FramerAlike.drop ⟨rfl, rfl⟩ h

/-! ### A frame emitted in any run (41_command_framer.md R79 to R81) -/

theorem frameWords_data (k : WireConstants) (m : Mode) : (frameWords k m).map TxWord.data = (build k m).toList := by
  simp only [frameWords, build, List.map_map, Vector.toList_ofFn, List.ofFn_eq_map, Function.comp_def]

/-- The mark is on the last of the nineteen words alone (30_encoding.md R61). -/
theorem frameWords_last (k : WireConstants) (m : Mode) :
    (frameWords k m).map TxWord.last = List.replicate 18 false ++ [true] := by
  simp only [frameWords, List.map_map, Function.comp_def]
  decide

/-- The takes that are left of a frame, run one by one, hand over the words that remain. -/
theorem runEvents_takes (n : Nat) {s : State} (hbusy : s.block.framer.txBusy = true)
    (hn : s.block.framer.txIdx.val + n = 19) :
    runEvents (List.replicate n .txTake) s =
      .next ((s.withFramer Framer.reset).record ((s.block.framer.remaining wire).map .tx)) := by
  induction n generalizing s with
  | zero => omega
  | succ n ih =>
    have hwf : s.block.framer.wf = true := Framer.wf_iff.2 fun h => by simp [hbusy] at h
    have htake := exec_txTake.trans (framerEvent_next (f := Framer.takeByte)
      (items := [.tx (s.block.framer.txWord wire)]) hbusy hwf)
    rw [List.replicate_succ, runEvents_cons_next htake, Framer.remaining_takeByte hbusy]
    by_cases h18 : s.block.framer.txIdx.val < 18
    · rw [ih] <;> simp only [State.record_block, State.withFramer_block_framer, Framer.takeByte_lt h18]
      · simp [State.record, State.withFramer]
      · exact hbusy
      · omega
    · obtain rfl : n = 0 := by omega
      rw [Framer.takeByte_last (by omega)]
      rfl

/-- A request and nineteen takes, run one by one, are the whole frame in one step. -/
theorem runEvents_frame {s t : State} {m : Mode} (h : runEvents (.cmdReq m :: List.replicate 19 .txTake) s = .next t) :
    t = (s.withFramer Framer.reset).record (.cmdReq m :: (frameWords wire m).map .tx) := by
  obtain ⟨u, hu, hrun⟩ := runEvents_cons_inv h
  obtain ⟨-, -, rfl⟩ := framerEvent_next_iff.1 hu
  rw [runEvents_takes 19 rfl rfl] at hrun
  cases hrun
  simp [State.record, State.withFramer, Framer.remaining_request]

/-- Settles O24: the framer's own operations in the run are a request and nineteen takes, whose words are those of the
frame. -/
theorem interleavedFrameIsEmittedWhole : Obligations.InterleavedFrameIsEmittedWhole := by
  intro is m s t _ hno hown hrun
  obtain ⟨-, t', ht', hframer, htxs⟩ := agentsSeeOnlyTheirOwnEvents is s t hrun
  have hfilter : (is.filter fun i => framerSide i || i == .reset) = is.filter framerSide :=
    List.filter_congr fun i hi => by
      have : i ≠ .reset := fun h => hno (h ▸ hi)
      simp [this]
  rw [hfilter, hown] at ht'
  have hframe := runEvents_frame ht'
  refine ⟨frameWords wire m, ?_, frameWords_data wire m, frameWords_last wire m, ?_⟩
  · rw [← htxs, hframe, State.record_trace, txs_append]
    exact congrArg _ (txs_map_tx _)
  · rw [← hframer, hframe]
    rfl

/-! ### One clock edge (10_state.md R26) -/

section Edge

variable {p : Pins} {r : Reader} {f : Framer}

theorem readerEventsAt_rx (hvalid : p.rxValid = true) (ho : r.rxReady = true) :
    readerEventsAt p r = [rxEvent (p.rxKind ++ p.rxData)] := by
  have hnone := (r.rxReady_iff.1 ho).2
  simp [readerEventsAt, hvalid, ho, hnone]

theorem readerEventsAt_take (hposted : r.resValid = true) (hready : p.resReady = true) :
    readerEventsAt p r = [.resTake] := by
  have hclosed : r.rxReady = false := by simp [Reader.rxReady, hposted]
  simp [readerEventsAt, hclosed, hposted, hready]

theorem readerEventsAt_none (hrx : ¬ (p.rxValid = true ∧ r.rxReady = true))
    (htake : ¬ (r.resValid = true ∧ p.resReady = true)) : readerEventsAt p r = [] := by
  rw [← Bool.and_eq_true] at hrx htake
  rw [readerEventsAt, if_neg hrx, if_neg htake, List.append_nil]

theorem framerEventsAt_request (hvalid : p.cmdValid = true) (hidle : f.txBusy = false) :
    framerEventsAt p f = [.cmdReq (Mode.ofBit p.cmdMode)] := by
  simp [framerEventsAt, hvalid, Framer.cmdReady_of_idle hidle, hidle]

theorem framerEventsAt_take (hbusy : f.txBusy = true) (hready : p.txReady = true) : framerEventsAt p f = [.txTake] := by
  simp [framerEventsAt, Framer.cmdReady_of_busy hbusy, hbusy, hready]

theorem framerEventsAt_none (hreq : ¬ (p.cmdValid = true ∧ f.txBusy = false))
    (htake : ¬ (f.txBusy = true ∧ p.txReady = true)) : framerEventsAt p f = [] := by
  have hreq : ¬ (p.cmdValid && f.cmdReady) = true := by simpa [Framer.cmdReady] using hreq
  rw [← Bool.and_eq_true] at htake
  rw [framerEventsAt, if_neg hreq, if_neg htake, List.append_nil]

end Edge

/-- An RX word's event is one of the three of the RX port. -/
theorem exists_instr_of_rxEvent (w : BitVec 10) : ∃ e : RxEvent, rxEvent w = e.instr := by
  rcases rxEvent_cases w with ⟨b, h, -⟩ | h | h
  · exact ⟨.byte b, h⟩
  · exact ⟨.eof, h⟩
  · exact ⟨.fail, h⟩

/-- At most one reader event falls on an edge, and its port is open. -/
theorem readerEventsAt_cases (p : Pins) (b : Block) :
    readerEventsAt p b.reader = [] ∨
      ∃ i, readerEventsAt p b.reader = [i] ∧ readerSide i = true ∧ enabled i b = true := by
  by_cases hrx : p.rxValid = true ∧ b.reader.rxReady = true
  · obtain ⟨e, he⟩ := exists_instr_of_rxEvent (p.rxKind ++ p.rxData)
    exact .inr ⟨e.instr, he ▸ readerEventsAt_rx hrx.1 hrx.2, by cases e <;> rfl, by cases e <;> exact hrx.2⟩
  · by_cases htake : b.reader.resValid = true ∧ p.resReady = true
    · exact .inr ⟨.resTake, readerEventsAt_take htake.1 htake.2, rfl, htake.1⟩
    · exact .inl (readerEventsAt_none hrx htake)

/-- At most one framer event falls on an edge, and its port is open. -/
theorem framerEventsAt_cases (p : Pins) (b : Block) :
    framerEventsAt p b.framer = [] ∨
      ∃ i, framerEventsAt p b.framer = [i] ∧ framerSide i = true ∧ enabled i b = true := by
  by_cases hreq : p.cmdValid = true ∧ b.framer.txBusy = false
  · exact .inr ⟨_, framerEventsAt_request hreq.1 hreq.2, rfl, Framer.cmdReady_of_idle hreq.2⟩
  · by_cases htake : b.framer.txBusy = true ∧ p.txReady = true
    · exact .inr ⟨.txTake, framerEventsAt_take htake.1 htake.2, rfl, htake.1⟩
    · exact .inl (framerEventsAt_none hreq htake)

/-- Settles O40: each agent has two ports that are never open together, and an RX word's kind names its event. -/
theorem edgeHasOneEventOfEachAgent : Obligations.EdgeHasOneEventOfEachAgent := by
  intro p b
  refine ⟨fun h => eventsAt_of_rst h b, fun h => if_neg (by simp [h]), ⟨?_, ?_⟩, fun hvalid hopen hnone => ?_,
    readerEventsAt_take, fun hrx htake => ?_, fun hvalid hidle => ?_, framerEventsAt_take, framerEventsAt_none⟩
  · rcases readerEventsAt_cases p b with h | ⟨i, h, -⟩ <;> simp [h]
  · rcases framerEventsAt_cases p b with h | ⟨i, h, -⟩ <;> simp [h]
  · rw [readerEventsAt_rx hvalid (b.reader.rxReady_iff.2 ⟨hopen, hnone⟩), rxEvent_append]
    refine ⟨fun h => by simp [h], fun h => by simp [h], ?_⟩
    rintro (h | h) <;> simp [h]
  · exact readerEventsAt_none (by rwa [Reader.rxReady_iff]) htake
  · rw [framerEventsAt_request hvalid hidle]
    exact ⟨fun h => by rw [h]; rfl, fun h => by rw [h]; rfl⟩

theorem clockEdge_of_not_rst {p : Pins} (h : p.rst = false) (s : State) :
    clockEdge p s = runEvents (readerEventsAt p s.block.reader ++ framerEventsAt p s.block.framer) s := by
  rw [clockEdge, (edgeHasOneEventOfEachAgent p s.block).2.1 h]

theorem runEvents_singleton {i : Instr} {s t : State} (h : exec i s = .next t) : runEvents [i] s = .next t :=
  runEvents_cons_next h

/-- The reader's part of an edge has a next state and leaves the framer alone. -/
theorem runEvents_readerEventsAt (p : Pins) {s : State} (hwf : s.block.reader.wf wire = true) :
    ∃ t, runEvents (readerEventsAt p s.block.reader) s = .next t ∧ t.block.framer = s.block.framer := by
  rcases readerEventsAt_cases p s.block with h | ⟨i, h, hi, ho⟩ <;> rw [h]
  · exact ⟨s, rfl, rfl⟩
  · obtain ⟨t, ht⟩ := exec_reader_next hi ho hwf
    exact ⟨t, runEvents_singleton ht, ((agentsWriteOnlyTheirOwn i s t ht).1 hi).1⟩

/-- The framer's part of an edge leads to the same framer from every state with the same framer, and leaves the reader
alone. -/
theorem runEvents_framerEventsAt (p : Pins) {s : State} (hwf : s.block.framer.wf = true) :
    ∃ t, runEvents (framerEventsAt p s.block.framer) s = .next t ∧
      ∀ {s'}, s'.block.framer = s.block.framer → ∃ t', runEvents (framerEventsAt p s.block.framer) s' = .next t' ∧
        t'.block.reader = s'.block.reader ∧ t'.block.framer = t.block.framer := by
  rcases framerEventsAt_cases p s.block with h | ⟨i, h, hi, ho⟩ <;> rw [h]
  · exact ⟨s, rfl, fun hs => ⟨_, rfl, rfl, hs⟩⟩
  · obtain ⟨t, ht⟩ := exec_framer_next hi ho hwf
    refine ⟨t, runEvents_singleton ht, fun hs => ?_⟩
    obtain ⟨items, -, ht', -⟩ := exec_framer_local hi ht hs
    exact ⟨_, runEvents_singleton ht', rfl, rfl⟩

/-- Settles O41: the reader's part of the edge leaves the framer as it was, so the framer's part is as from the start. -/
theorem edgeStepsBothAgents : Obligations.EdgeStepsBothAgents := by
  intro p s hwf
  obtain ⟨hr, hf⟩ := Block.wf_iff.1 hwf
  refine ⟨fun hrst => ⟨_, clockEdge_of_rst hrst s, rfl⟩, fun hrst => ?_⟩
  obtain ⟨tr, htr, hframer⟩ := runEvents_readerEventsAt p hr
  obtain ⟨tf, htf, hlocal⟩ := runEvents_framerEventsAt p hf
  obtain ⟨t, ht, hreader, hsame⟩ := hlocal hframer
  refine ⟨t, tr, tf, ?_, htr, htf, hreader, hsame⟩
  rw [clockEdge_of_not_rst hrst, runEvents_append, htr]
  exact ht

end Sys2Proof.Machine

/-! PROOFS of the statements about the step and the offers (10_state.md section 5; 20_memory.md section 6). -/

namespace Sys2Proof.Machine

/-! ### The offer that a step deals with -/

section NextOffer

variable {b : Block} {o : Offer} {os pre post rest : List Offer}

theorem ready_of_held (h : Held b o) : ready b o = false := ready_eq_false.2 h

theorem ready_of_noEvent (h : ask o = .noEvent) : ready b o = true := by simp [ready, h]

theorem ready_of_noWord {e : DecodeError} (h : ask o = .noWord e) : ready b o = true := by simp [ready, h]

theorem ready_of_event {i : Instr} {more : List Offer} (h : ask o = .event i more) : ready b o = enabled i b := by
  simp [ready, h]

/-- Behind held offers the first offer that is ready is the next. -/
theorem nextOffer_of_ready (hos : os = pre ++ o :: post) (hpre : ∀ x ∈ pre, Held b x) (ho : ready b o = true) :
    nextOffer b os = some (o, pre ++ post) := by
  rw [hos]
  exact nextOffer_of_pick (pick_first (fun x hx => ready_of_held (hpre x hx)) ho)

/-- Where every offer is held the first of all is the next. -/
theorem nextOffer_of_all_held (h : ∀ x ∈ o :: os, Held b x) : nextOffer b (o :: os) = some (o, os) :=
  nextOffer_of_held (pick_none fun x hx => ready_of_held (h x hx))

/-- Everything `nextOffer` can answer: behind held offers either a ready one, or the first of all. -/
theorem nextOffer_some (h : nextOffer b os = some (o, rest)) :
    ∃ pre post, os = pre ++ o :: post ∧ rest = pre ++ post ∧
      (ready b o = true ∧ (∀ x ∈ pre, ready b x = false) ∨ pre = []) := by
  unfold nextOffer at h
  split at h
  case h_1 q hpick =>
    cases h
    obtain ⟨ho, pre, post, hos, hrest, hpre⟩ := pick_some hpick
    exact ⟨pre, post, hos, hrest, .inl ⟨ho, hpre⟩⟩
  case h_2 =>
    cases os with
    | nil => cases h
    | cons x xs =>
      cases h
      exact ⟨[], _, rfl, rfl, .inr rfl⟩

end NextOffer

/-! ### What the step does with it -/

section Step

variable {s : State} {o : Offer} {rest : List Offer}

theorem step_of_event (h : nextOffer s.block s.offers = some (o, rest)) {i : Instr} {more : List Offer}
    (ha : ask o = .event i more) : step s = exec i (s.withOffers (more ++ rest)) := by
  simp only [step, h, ha]

theorem step_of_noEvent (h : nextOffer s.block s.offers = some (o, rest)) (ha : ask o = .noEvent) :
    step s = .next (s.withOffers rest) := by
  simp only [step, h, ha]

theorem step_of_noWord (h : nextOffer s.block s.offers = some (o, rest)) {e : DecodeError} (ha : ask o = .noWord e) :
    step s = .refused (.undecodable e) := by
  simp only [step, h, ha]

theorem step_of_nothing (h : s.offers = []) : step s = .refused .nothingOffered := by
  simp only [step, h]
  rfl

end Step

/-- Settles O42: an offer that asks for an event at an open port is ready, and the offers before it are not. -/
theorem stepRunsTheFirstOpenOffer : Obligations.StepRunsTheFirstOpenOffer := by
  intro s pre post o hos hpre
  constructor
  · intro i hdecode hopen
    have hask := ask_of_decode hdecode
    exact step_of_event (nextOffer_of_ready hos hpre ((ready_of_event hask).trans hopen)) hask
  · rintro b bs e rfl hdecode hopen hnone
    have hask : ask ⟨.frameIn, b :: bs⟩ = .event (.rxByte b) (rxWords bs) := ask_frameIn hdecode
    have ho := s.block.reader.rxReady_iff.2 ⟨hopen, hnone⟩
    exact step_of_event (nextOffer_of_ready hos hpre ((ready_of_event hask).trans ho)) hask

/-- Settles O43: with every offer held the first is run and refused; a word that asks for no event, or that is none, is
ready. -/
theorem stepWithoutAnOpenOffer : Obligations.StepWithoutAnOpenOffer := by
  refine ⟨fun s => step_of_nothing, fun s hne hheld => ?_, fun s pre post o hos hpre => ?_⟩
  · obtain ⟨x, xs, hos⟩ := List.exists_cons_of_ne_nil hne
    obtain ⟨j, more, hask, hclosed⟩ := hheld x (by simp [hos])
    rw [step_of_event (by rw [hos]; exact nextOffer_of_all_held (hos ▸ hheld)) hask]
    exact closedPortsRefuse j _ hclosed
  constructor
  · intro ho
    have hask : ask o = .noEvent := by rcases ho with rfl | rfl <;> rfl
    exact step_of_noEvent (nextOffer_of_ready hos hpre (ready_of_noEvent hask)) hask
  · intro e hchannel hdecode hne
    have hask : ask o = .noWord e := (ask_of_error hdecode hchannel).trans (if_neg hne)
    exact step_of_noWord (nextOffer_of_ready hos hpre (ready_of_noWord hask)) hask

/-- A word offered alone is dealt with, at an open port or not. -/
theorem nextOffer_singleton (b : Block) (o : Offer) : nextOffer b [o] = some (o, []) := by
  cases h : ready b o with
  | true => exact nextOffer_of_ready (pre := []) rfl (by simp) h
  | false => exact nextOffer_of_held (by simp [pick, h])

/-- Settles O44: the word is the only offer, so it is the next. -/
theorem fetchWordIsRun : Obligations.FetchWordIsRun := by
  intro s nbits w i h
  have hdecode : decode (tableOffer nbits w) = .ok i := by
    unfold decodeTableWord at h
    split at h
    case h_1 j hj => rw [hj, Option.some.inj h]
    case h_2 => cases h
  exact step_of_event (s := s.withFetchWord nbits w) (nextOffer_singleton s.block _) (ask_of_decode hdecode)

/-- The framer's operations but TX.TAKE begin with a request. -/
theorem enabled_of_framerSide {i : Instr} (hi : framerSide i = true) (htake : i ≠ .txTake) (b : Block) :
    enabled i b = b.framer.cmdReady := by
  cases i with
  | cmdSleep | cmdWake | cmdReq => rfl
  | txTake => exact absurd rfl htake
  | _ => cases hi

/-- Of two operations of which one is enabled and the other is not, the ports differ: the RX port, RES, TX and CMD have one
enabling condition each. -/
theorem port_ne_of_enabled_ne {i j : Instr} {b : Block} (hi : enabled i b = true) (hj : enabled j b = false) :
    (rxSide i = true → rxSide j = false) ∧ (i = .resTake → j ≠ .resTake) ∧ (i = .txTake → j ≠ .txTake) ∧
      (framerSide i = true → i ≠ .txTake → framerSide j = true → j = .txTake) := by
  have hne : enabled i b ≠ enabled j b := by simp [hi, hj]
  refine ⟨fun hri => ?_, ?_, ?_, fun hfi hti hfj => ?_⟩
  · by_contra hrj
    rw [Bool.not_eq_false] at hrj
    exact hne (by rw [enabled_of_rxSide hri, enabled_of_rxSide hrj])
  · rintro rfl rfl
    exact hne rfl
  · rintro rfl rfl
    exact hne rfl
  · by_contra htj
    exact hne (by rw [enabled_of_framerSide hfi hti, enabled_of_framerSide hfj htj])

/-- Settles O45: what stands before a ready offer is held, so its port differs from the ready one's; where none is ready
nothing stands before the first. -/
theorem noOfferOvertakesItsPort : Obligations.NoOfferOvertakesItsPort := by
  intro b os rest o h
  obtain ⟨pre, post, hos, hrest, ⟨ho, hpre⟩ | rfl⟩ := nextOffer_some h
  · refine ⟨pre, post, hos, hrest, fun x hx => ?_⟩
    obtain ⟨j, mj, hj, hclosed⟩ := ready_eq_false.1 (hpre x hx)
    exact ⟨j, mj, hj, hclosed, fun i mi hi => port_ne_of_enabled_ne ((ready_of_event hi).symm.trans ho) hclosed⟩
  · exact ⟨[], post, hos, hrest, by simp⟩

end Sys2Proof.Machine

/-! PROOFS of the statements about the laws of the codec (40_codec.md R69). -/

namespace Sys2Proof.Machine

/-! ### The arithmetic laws (40_codec.md R69) -/

/-- Law L1: the checksum may be reduced as one goes. -/
theorem checksum_append (s t : List Byte) : checksum (s ++ t) = checksum s + checksum t := by
  simp only [checksum, List.map_append, List.sum_append, BitVec.ofNat_add]

/-- Law L2: the checksum does not depend on the order of the bytes. -/
theorem checksum_perm {s t : List Byte} (h : s.Perm t) : checksum s = checksum t := by
  rw [checksum, checksum, (h.map BitVec.toNat).sum_eq]

/-- Law L5: changing one byte changes the checksum, since the sum of the other bytes cancels. -/
theorem checksum_set_ne {s : List Byte} {i : Nat} (h : i < s.length) {b : Byte} (hb : b ≠ s[i]) :
    checksum (s.set i b) ≠ checksum s := by
  have hsum : ∀ c, checksum (s.take i ++ c :: s.drop (i + 1)) =
      checksum (s.take i) + (c + checksum (s.drop (i + 1))) := fun c => by rw [checksum_append, checksum_cons]
  have hset : s.set i b = s.take i ++ b :: s.drop (i + 1) := List.set_eq_take_append_cons_drop ▸ if_pos h
  have hself : s.take i ++ s[i] :: s.drop (i + 1) = s := by simp
  rw [hset, hsum, ← congrArg checksum hself, hsum]
  exact fun heq => hb (add_right_cancel (add_left_cancel heq))

/-- Settles O31: the sum modulo 256 is additive, and field assembly is `lo + 256 * hi`. -/
theorem codecArithmeticLaws : Obligations.CodecArithmeticLaws := by
  refine ⟨fun s t => ?_, fun _ _ => checksum_perm, fun _ _ h _ => checksum_set_ne h, fun lo hi => ?_⟩
  · rw [checksum_append, BitVec.toNat_add]
  · have := lo.isLt
    rw [toNat_u16le]
    omega

/-! ### PARSE and valid frames (30_encoding.md R54, R62) -/

theorem parse_eq_some_iff {k : WireConstants} {f : Vector Byte 10} {p : ParseResult} :
    parse k f = some p ↔ f[0] = k.head ∧ classify k f = p := by
  simp [parse]

/-- The window is a reading only behind all three tests. -/
theorem classify_eq_reading_iff {k : WireConstants} {f : Vector Byte 10} {a b : Half} :
    classify k f = .reading a b ↔ (f[1] = k.rspId ∧ f[8] = checksum (rspPayload f) ∧ f[9] = k.tail) ∧
      u16le f[2] f[3] = a ∧ u16le f[4] f[5] = b := by
  unfold classify
  split_ifs <;> simp_all

/-- Settles O32: a reading is what is left behind the three tests of a window with a head. -/
theorem parseReadsExactlyValidFrames : Obligations.ParseReadsExactlyValidFrames := by
  intro k f a b
  rw [parse_eq_some_iff, classify_eq_reading_iff, ← and_assoc]
  exact and_congr_right fun _ => and_congr eq_comm eq_comm

/-! ### Errors of one byte (95_test_vectors.md E4) -/

section OneByte

variable {k : WireConstants} {f : Vector Byte 10} {i : Nat} {b : Byte}

theorem rspPayload_set_outside (hi : i < 10) (h : i < 2 ∨ 7 < i) : rspPayload (f.set i b hi) = rspPayload f := by
  have hne : ∀ j, 2 ≤ j → j ≤ 7 → i ≠ j := by omega
  simp [rspPayload, hne]

theorem rspPayload_set_inside (h2 : 2 ≤ i) (h7 : i ≤ 7) :
    rspPayload (f.set i b (by omega)) = (rspPayload f).set (i - 2) b := by
  obtain rfl | rfl | rfl | rfl | rfl | rfl : i = 2 ∨ i = 3 ∨ i = 4 ∨ i = 5 ∨ i = 6 ∨ i = 7 := by omega
  all_goals simp [rspPayload]

/-- The payload with one of its bytes changed has another checksum (40_codec.md R69, L5). -/
theorem checksum_rspPayload_set_ne (h2 : 2 ≤ i) (h7 : i ≤ 7) (hb : b ≠ f[i]) :
    checksum (rspPayload (f.set i b (by omega))) ≠ checksum (rspPayload f) := by
  have hlt : i - 2 < (rspPayload f).length := by simp [rspPayload]; omega
  have hbyte : (rspPayload f)[i - 2] = f[i] := by
    obtain rfl | rfl | rfl | rfl | rfl | rfl : i = 2 ∨ i = 3 ∨ i = 4 ∨ i = 5 ∨ i = 6 ∨ i = 7 := by omega
    all_goals rfl
  rw [rspPayload_set_inside h2 h7]
  exact checksum_set_ne hlt (hbyte ▸ hb)

/-- The test that a changed byte fails is the first one that looks at it: the bytes before it are still right. -/
theorem classify_set (hvalid : validFrame k f = true) (h1 : 1 ≤ i) (h9 : i < 10) (hb : b ≠ f[i]) :
    classify k (f.set i b) =
      if i = 1 then .unexpectedCommandId else if i = 9 then .badTail else .checksumMismatch := by
  obtain ⟨-, hid, hsum, htail⟩ := (validFrame_iff k f).1 hvalid
  have hsame : ∀ (j : Nat) (hj : j < 10), i ≠ j → (f.set i b)[j] = f[j] := fun j hj hne => Vector.getElem_set_ne h9 hj hne
  obtain rfl | ⟨h2, h7⟩ | rfl | rfl : i = 1 ∨ (2 ≤ i ∧ i ≤ 7) ∨ i = 8 ∨ i = 9 := by omega
  · rw [if_pos rfl]
    exact classify_wrongId (by simpa [hid] using hb)
  · rw [if_neg (by omega), if_neg (by omega)]
    refine classify_wrongSum (by rw [hsame 1 (by omega) (by omega), hid]) ?_
    rw [hsame 8 (by omega) (by omega), hsum]
    exact (checksum_rspPayload_set_ne h2 h7 hb).symm
  · refine classify_wrongSum (by rw [hsame 1 (by omega) (by omega), hid]) ?_
    rw [rspPayload_set_outside h9 (by omega), ← hsum]
    simpa using hb
  · refine classify_wrongTail (by rw [hsame 1 (by omega) (by omega), hid]) ?_ (by simpa [htail] using hb)
    rw [rspPayload_set_outside h9 (by omega), ← hsum, hsame 8 (by omega) (by omega)]

end OneByte

/-- Settles O33: the head stays in its place, so PARSE is defined and names the first test that the changed byte fails. -/
theorem singleByteErrorsAreNamed : Obligations.SingleByteErrorsAreNamed := by
  intro k f i b hvalid hi hb
  have hhead : (f.set i.val b)[0] = k.head := by
    rw [Vector.getElem_set_ne _ _ (by omega)]
    exact ((validFrame_iff k f).1 hvalid).1
  rw [parse_head hhead, classify_set hvalid hi i.isLt hb]

end Sys2Proof.Machine

/-! PROOFS of the statements about the tenth byte (42_stream_reader.md section 2) and about whole frames (30_encoding.md
section 6). -/

namespace Sys2Proof.Machine

/-! ### The tenth byte (42_stream_reader.md R86) -/

/-- The completed window begins with the candidate's first byte, a head (10_state.md R17, I3). -/
theorem head_of_completes {k : WireConstants} {r : Reader} {b : Byte} {w : Vector Byte 10} (hwf : r.wf k = true)
    (hframe : r.rstate = .frame) (hw : Completes r b w) : w[0] = k.head := by
  obtain ⟨-, hI3, -⟩ := Reader.wf_iff.1 hwf
  exact (hw 0).trans (hI3 hframe).2

/-- An open reader with nine bytes collected completes the window with the next. -/
theorem exec_tenth {s : State} (b : Byte) (hwf : s.block.reader.wf wire = true) (hframe : s.block.reader.rstate = .frame)
    (hnone : s.block.reader.resValid = false) (hcnt : s.block.reader.cnt = 9) :
    exec (.rxByte b) s = .next ((s.withReader (s.block.reader.complete wire b)).record [.rxByte b]) :=
  exec_rxByte_of_open hwf (by simp [hframe]) hnone (Reader.rxByte_tenth hframe (congrArg Fin.val hcnt))

/-- Settles O15: the window has a head, so PARSE is `classify`, whose outcome the tenth byte posts. -/
theorem tenthBytePostsWhatParseSays : Obligations.TenthBytePostsWhatParseSays := by
  intro s b w hwf hframe hnone hcnt hw
  refine ⟨_, classify wire w, exec_tenth b hwf hframe hnone hcnt, parse_head (head_of_completes hwf hframe hw), ?_⟩
  rw [State.record_block, State.withReader_block_reader]
  cases hc : classify wire w with
  | unexpectedCommandId => exact Reader.complete_of_wrongId hw hc ▸ posts_raise _ _
  | checksumMismatch => exact Reader.complete_of_checksumMismatch hw hc ▸ posts_raise _ _
  | badTail => exact Reader.complete_of_badTail hw hc ▸ posts_raise _ _
  | reading p q => exact Reader.complete_of_reading hw hc ▸ posts_post _ _ p q

/-- Settles O14: the first head is not behind this one, so the window kept from it holds this one too. -/
theorem idCheckSkipsNoHead : Obligations.IdCheckSkipsNoHead := by
  intro s b w j hwf hframe hnone hcnt hw hid hj hhead
  obtain ⟨-, hhit⟩ := tenthByteUnexpectedIdRescans s b w hwf hframe hnone hcnt hw hid
  cases hr : rescan wire w with
  | none => exact absurd hhead (rescan_eq_none hr j hj)
  | some k =>
    obtain ⟨hk, hkhead, hfirst⟩ := rescan_eq_some hr
    have hkj : k.val ≤ j.val := by
      by_contra hlt
      exact hfirst j hj (by omega) hhead
    obtain ⟨t, ht, hstate, hc, hbuf, -⟩ := hhit k hk hkhead hfirst
    refine ⟨t, ht, hstate, ⟨j.val - k.val, by omega⟩, Fin.lt_def.2 (by simp only [hc]; omega), ?_, by simp only [hc]; omega⟩
    rw [hbuf, dif_pos (by simp only; omega)]
    simpa [Nat.sub_add_cancel hkj] using hhead

/-! ### A response frame delivered (42_stream_reader.md R92; 30_encoding.md R65) -/

theorem toList_responseFrame_wire (a A b B x y c : Byte) :
    (responseFrame wire a A b B x y c).toList = [0xAA, 0xC0, a, A, b, B, x, y, c, 0xAB] := rfl

/-- A delivery to an open port accepts the first byte. -/
theorem Reader.deliver_open {k : WireConstants} {r : Reader} (ho : r.rxReady = true) (b : Byte) (bs : List Byte) :
    Reader.deliver k (b :: bs) r = Reader.deliver k bs (r.rxByte k b) := if_pos ho

theorem Reader.deliver_used_ne_nil {k : WireConstants} {r : Reader} (ho : r.rxReady = true) {bs used : List Byte}
    (hne : bs ≠ []) (h : bs = used ++ (Reader.deliver k bs r).2) : used ≠ [] := by
  rintro rfl
  obtain ⟨b, bs, rfl⟩ := List.exists_cons_of_ne_nil hne
  rw [Reader.deliver_open ho] at h
  obtain ⟨more, hsplit, -⟩ := Reader.deliver_split k bs (r.rxByte k b)
  have hlength := congrArg List.length h
  have hle := congrArg List.length hsplit
  simp only [List.length_append, List.length_cons, List.length_nil] at hlength hle
  omega

/-- A well-formed reader with its port closed has a result posted: in CLOSED one always waits (10_state.md R17, I4). -/
theorem Reader.resValid_of_not_rxReady {k : WireConstants} {r : Reader} (hwf : r.wf k = true) (h : r.rxReady = false) :
    r.resValid = true := by
  obtain ⟨-, -, hI4, -⟩ := Reader.wf_iff.1 hwf
  by_contra hnone
  have hclosed : r.rstate = .closed := by
    by_contra hne
    exact absurd (r.rxReady_iff.2 ⟨hne, by simpa using hnone⟩) (by simp [h])
  exact hnone (hI4 hclosed).2.1

/-- Bytes are left of a delivery only where a result closed the port. -/
theorem Reader.deliver_stops {k : WireConstants} {r : Reader} (hwf : r.wf k = true) (bs : List Byte) :
    (Reader.deliver k bs r).2 = [] ∨ (Reader.deliver k bs r).1.resValid = true := by
  obtain ⟨-, -, hstop⟩ := Reader.deliver_split k bs r
  exact hstop.imp_right (Reader.resValid_of_not_rxReady (Reader.wf_deliver bs hwf))

/-- Settles O20: delivery is the run of the RX.BYTE events of the bytes accepted, and stops at a closed port alone. -/
theorem responseFrameIsItsBytes : Obligations.ResponseFrameIsItsBytes := by
  intro s a A b B x y c hwf hopen hnone
  have ho := s.block.reader.rxReady_iff.2 ⟨hopen, hnone⟩
  rw [← toList_responseFrame_wire]
  have hne : (responseFrame wire a A b B x y c).toList ≠ [] := by simp [toList_responseFrame_wire]
  obtain ⟨used, hsplit, hrun⟩ := runEvents_deliver (responseFrame wire a A b B x y c).toList s hwf
  have hstop := Reader.deliver_stops hwf (responseFrame wire a A b B x y c).toList
  have hused := Reader.deliver_used_ne_nil ho hne hsplit
  have hexec := execRspData_next_iff.2 ⟨ho, hwf, used, _, hsplit, by rw [← hsplit], rfl⟩
  rw [← hsplit] at hexec
  exact ⟨_, _, used, _, hexec, hsplit.symm, hused, hrun, rfl, rfl, rfl, hstop, rfl⟩

/-! ### A valid frame read from SEEK (42_stream_reader.md R92) -/

/-- A well-formed reader that seeks and has no result posted is the one at reset (10_state.md R17, I2, I5, I6). -/
theorem Reader.eq_reset_of_seek {k : WireConstants} {r : Reader} (hwf : r.wf k = true) (hseek : r.rstate = .seek)
    (hnone : r.resValid = false) : r = Reader.reset := by
  obtain ⟨hI2, -, -, hI5, hI6, -⟩ := Reader.wf_iff.1 hwf
  have hcnt := hI2 hseek
  obtain ⟨hkind, hpm25, hpm10⟩ := hI6 hnone
  have hbuf : r.buf = emptyBuf := Vector.ext fun i hi =>
    (hI5 ⟨i, hi⟩ (by rw [hcnt]; exact Fin.zero_le _)).trans (memRead1_emptyBuf ⟨i, hi⟩).symm
  cases r
  subst hseek hcnt hbuf hnone hkind hpm25 hpm10
  rfl

/-- Bytes up to the ninth are only collected (42_stream_reader.md R85). -/
theorem Reader.deliver_collect {k : WireConstants} (xs ys zs : List Byte) (h : xs.length + ys.length ≤ 9) :
    Reader.deliver k (ys ++ zs) (candidate xs (by omega)) =
      Reader.deliver k zs (candidate (xs ++ ys) (by simp; omega)) := by
  induction ys generalizing xs with
  | nil => simp
  | cons y ys ih =>
    rw [List.length_cons] at h
    have hbyte : (candidate xs (by omega)).rxByte k y = _ := candidate_byte xs (by omega) y
    rw [List.cons_append, Reader.deliver_open (candidate_ready _ _), hbyte, ih (xs ++ [y]) (by simp; omega)]
    simp

/-- Ten bytes that begin with a head are delivered whole to a reader that seeks, and completed as one window. -/
theorem Reader.deliver_frame {k : WireConstants} (bs : List Byte) (b : Byte) (h : bs.length = 8) :
    ∃ r : Reader, window r.buf b = padded (k.head :: bs ++ [b]) ∧
      Reader.deliver k (k.head :: (bs ++ [b])) Reader.reset = (r.complete k b, []) := by
  have hc : (k.head :: bs).length = 9 := by simp [h]
  obtain ⟨htenth, hwindow⟩ := candidate_tenth (k := k) (k.head :: bs) hc b
  refine ⟨candidate (k.head :: bs) (by omega), hwindow, ?_⟩
  have hhead : Reader.reset.rxByte k k.head = _ := reset_head
  have htenth : (candidate (k.head :: bs) _).rxByte k b = _ := htenth
  rw [Reader.deliver_open reset_ready, hhead, Reader.deliver_collect [k.head] bs [b] (by simp [h])]
  exact (Reader.deliver_open (candidate_ready (k.head :: bs) (by omega)) b []).trans (congrArg (·, []) htenth)

/-- The ten bytes of a response frame with the right checksum byte are a valid frame (30_encoding.md R54). -/
theorem validFrame_responseFrame (k : WireConstants) (a A b B i j : Byte) :
    validFrame k (responseFrame k a A b B i j (checksum [a, A, b, B, i, j])) = true :=
  (validFrame_iff _ _).2 ⟨rfl, rfl, rfl, rfl⟩

/-- Settles O19: a reader that seeks is the one at reset, and the ten bytes fill one window, a valid frame. -/
theorem responseFrameFromSeekIsRead : Obligations.ResponseFrameFromSeekIsRead := by
  intro s a A b B i j hwf hseek hnone
  have ho := s.block.reader.rxReady_iff.2 ⟨by simp [hseek], hnone⟩
  have hclass := classify_valid (validFrame_responseFrame wire a A b B i j)
  obtain ⟨r, hw, hd⟩ := Reader.deliver_frame (k := wire) [0xC0, a, A, b, B, i, j, checksum [a, A, b, B, i, j]] 0xAB rfl
  have hcomplete : r.complete wire 0xAB = (r.clear .seek).post .reading (u16le a A) (u16le b B) := by
    have hframe := (hw.trans (padded_toList (responseFrame wire a A b B i j (checksum [a, A, b, B, i, j]))))
    simp only [Reader.complete, hframe, hclass]
    rfl
  have hdeliver : Reader.deliver wire (responseFrame wire a A b B i j (checksum [a, A, b, B, i, j])).toList
      s.block.reader = ((r.clear .seek).post .reading (u16le a A) (u16le b B), []) := by
    rw [Reader.eq_reset_of_seek hwf hseek hnone, ← hcomplete]
    exact hd
  have hexec := execRspData_next_iff.2 ⟨ho, hwf, _, [], (List.append_nil _).symm,
    by rw [List.append_nil, hdeliver], rfl⟩
  rw [List.append_nil, hdeliver] at hexec
  exact ⟨_, hexec, emptyIn_clear_post r .seek .reading _ _, posts_post _ .reading _ _, rfl, rfl, rfl, rfl⟩

/-! ### A whole command frame (41_command_framer.md R79, R80) -/

/-- The words of a command frame are the bytes of the printed one, the mark on the last alone. -/
theorem frameWords_wire (m : Mode) : frameWords wire m =
    ([0xAA, 0xB4, 0x06, 0x01, m.bit.setWidth 8, 0, 0, 0, 0, 0, 0, 0, 0, 0, 0, 0xFF, 0xFF, 0x05 + m.bit.setWidth 8] :
      List Byte).map (TxWord.mk false) ++ [⟨true, 0xAB⟩] := by
  cases m <;> decide

/-- What a whole-frame operation does from an idle framer. -/
theorem exec_wholeFrame_of_idle {i : Instr} {m : Mode} {s : State} (hwf : s.block.framer.wf = true)
    (hidle : s.block.framer.txBusy = false)
    (h : exec i s = framerEvent s.block.framer.cmdReady (fun _ => Framer.reset)
      (.cmdReq m :: (frameWords wire m).map .tx) s) :
    ∃ t, exec i s = .next t ∧ t.block.framer.txBusy = false ∧ t.block.framer.txMode = .sleep ∧ t.block.framer.txIdx = 0 ∧
      ChangesOnlyFramer s t (.cmdReq m :: (frameWords wire m).map .tx) :=
  ⟨_, h.trans (framerEvent_next (Framer.cmdReady_of_idle hidle) hwf), rfl, rfl, rfl,
    changesOnlyFramer_withFramer_record s _ _⟩

/-- Settles O23: the request and the nineteen takes are one step, whose words are the printed bytes. -/
theorem wholeFramesAreEmitted : Obligations.WholeFramesAreEmitted := by
  intro s hwf hidle
  have hwake := exec_wholeFrame_of_idle hwf hidle exec_cmdWake
  have hsleep := exec_wholeFrame_of_idle hwf hidle exec_cmdSleep
  rw [frameWords_wire, List.map_append, List.map_map] at hwake hsleep
  exact ⟨hwake, hsleep⟩

end Sys2Proof.Machine

/-! PROOFS of the statements about `read_next()` (42_stream_reader.md section 5). -/

namespace Sys2Proof.Machine

/-! ### `read_next()` on the machine (42_stream_reader.md R98) -/

/-- A well-formed reader with a result posted hands it over at RES.TAKE. -/
theorem exec_resTake_of_posted {s : State} (hwf : s.block.reader.wf wire = true) (h : s.block.reader.resValid = true) :
    exec .resTake s = .next ((s.withReader s.block.reader.takeResult).record [.take s.block.reader.result]) :=
  exec_resTake.trans (readerEvent_next h hwf)

/-- Where a result is posted the run is one RES.TAKE. -/
theorem runEvents_resTake {s : State} (hwf : s.block.reader.wf wire = true) (h : s.block.reader.resValid = true)
    (es : List RxEvent) : ∃ used t, es = used ++ es ∧ runEvents (used.map RxEvent.instr ++ [.resTake]) s = .next t ∧
      t.block.reader = s.block.reader.takeResult ∧
      ChangesOnlyReader s t (used.map RxEvent.item ++ [.take s.block.reader.result]) :=
  ⟨[], _, rfl, runEvents_singleton (exec_resTake_of_posted hwf h), rfl, changesOnlyReader_withReader_record s _ _⟩

/-- Settles O55: each event that `read_next()` accepts is one event of the machine, and the result posted is taken. -/
theorem readNextIsARunOfTheMachine : Obligations.ReadNextIsARunOfTheMachine := by
  intro es rest x r' s hwf h
  induction es generalizing s with
  | nil =>
    rw [Reader.readNext] at h
    split_ifs at h with hposted
    cases h
    exact runEvents_resTake hwf hposted []
  | cons e es ih =>
    rw [Reader.readNext] at h
    split_ifs at h with hposted ho
    · cases h
      exact runEvents_resTake hwf hposted (e :: es)
    · have he := (exec_rxEvent s e).trans (readerEvent_next ho hwf)
      obtain ⟨used, t, hes, hrun, hr', hframer, hoffers, hcodec, htrace⟩ :=
        ih ((s.withReader (s.block.reader.accept wire e)).record [e.item]) (Reader.wf_accept e ho hwf) h
      refine ⟨e :: used, t, congrArg (e :: ·) hes, ?_, hr', hframer, hoffers, hcodec, by simpa using htrace⟩
      rw [List.map_cons, List.cons_append, runEvents_cons_next he, hrun]

/-! ### One window (42_stream_reader.md R86) -/

theorem byteEvents_append (xs ys : List Byte) : byteEvents (xs ++ ys) = byteEvents xs ++ byteEvents ys :=
  List.map_append

/-- A valid window is read, and leaves the reset state once its result is taken. -/
theorem complete_validFrame {k : WireConstants} {r : Reader} {b : Byte} {f : Vector Byte 10} (hw : window r.buf b = f)
    (h : validFrame k f = true) : (r.complete k b).result = ⟨.reading, u16le f[2] f[3], u16le f[4] f[5]⟩ ∧
      (r.complete k b).takeResult = Reader.reset := by
  subst hw
  exact complete_reading (classify_valid h)

/-- A valid frame at the reset state is read, and its ten bytes are consumed. -/
theorem readNext_validFrame {k : WireConstants} {f : Vector Byte 10} (h : validFrame k f = true) (es : List RxEvent) :
    Reader.reset.readNext k (byteEvents f.toList ++ es) =
      some (⟨.reading, u16le f[2] f[3], u16le f[4] f[5]⟩, es, Reader.reset) := by
  obtain ⟨r, b, -, hw, hr⟩ := readNext_frame f ((validFrame_iff k f).1 h).1 es
  obtain ⟨hres, htake⟩ := complete_validFrame hw h
  rw [hr, hres, htake]

/-- A window with head and id and a wrong checksum is consumed whole (42_stream_reader.md R90). -/
theorem readNext_wrongSum {k : WireConstants} {w : Vector Byte 10} (hhead : w[0] = k.head) (hid : w[1] = k.rspId)
    (hsum : w[8] ≠ checksum (rspPayload w)) (es : List RxEvent) :
    Reader.reset.readNext k (byteEvents w.toList ++ es) = some (⟨.checksumMismatch, 0, 0⟩, es, Reader.reset) := by
  obtain ⟨r, b, -, hw, hr⟩ := readNext_frame w hhead es
  have hc : r.complete k b = (r.clear .seek).raise .checksumMismatch := by
    simp only [Reader.complete, hw, classify_wrongSum hid hsum]
  rw [hr, hc]
  rfl

/-- Settles O56: the noise is dropped, and the frame is read. -/
theorem noiseThenFrameIsRead : Obligations.NoiseThenFrameIsRead := by
  intro k noise rest f hnoise hvalid
  rw [byteEvents_append, byteEvents_append, List.append_assoc, readNext_noise noise hnoise,
    readNext_validFrame hvalid]

theorem readMany_succ {k : WireConstants} {n : Nat} {es es' es'' : List RxEvent} {r r' r'' : Reader} {x : Result}
    {xs : List Result} (h : r.readNext k es = some (x, es', r')) (hn : r'.readMany k n es' = some (xs, es'', r'')) :
    r.readMany k (n + 1) es = some (x :: xs, es'', r'') := by
  simp only [Reader.readMany, h, hn]

/-- Settles O57: each of the two windows is consumed whole and leaves the reset state. -/
theorem corruptedThenValidFrame : Obligations.CorruptedThenValidFrame := by
  intro k w f rest hhead hid hsum hvalid
  rw [byteEvents_append, byteEvents_append, List.append_assoc]
  exact readMany_succ (readNext_wrongSum hhead hid hsum _) (readMany_succ (readNext_validFrame hvalid _) rfl)

/-! ### A false head (42_stream_reader.md R88, R89) -/

/-- Moving the window down keeps its end, with 0x00 above. -/
theorem shiftDown_eq_padded (w : Vector Byte 10) (n : Nat) : shiftDown w n = padded (w.toList.drop n) := by
  apply Vector.ext
  intro i hi
  rw [getElem_padded, List.getD_eq_getElem?_getD, List.getElem?_drop, Nat.add_comm n i]
  by_cases h : i + n < 10
  · simp [shiftDown, h]
  · simp [shiftDown, h]

/-- A re-scan hit reports the id and leaves the rest of the window as the candidate. -/
theorem complete_hit {k : WireConstants} {r : Reader} {b : Byte} {w : Vector Byte 10} {i : Fin 10}
    (hw : window r.buf b = w) (hid : w[1] ≠ k.rspId) (hhit : rescan k w = some i) :
    ∃ h, (r.complete k b).result = ⟨.unexpectedCommandId, 0, 0⟩ ∧
      (r.complete k b).takeResult = candidate (w.toList.drop i.val) h := by
  obtain ⟨hi, -⟩ := rescan_eq_some hhit
  have hc : r.complete k b = (r.keepFrom w i).raise .unexpectedCommandId := by
    simp only [Reader.complete, hw, classify_wrongId hid, Reader.resync_hit hhit]
  have hcnt : (r.keepFrom w i).cnt = ⟨(w.toList.drop i.val).length, by simp; omega⟩ :=
    Fin.ext ((r.keepFrom_cnt_val w hi).trans (by simp))
  have hlen : (w.toList.drop i.val).length ≤ 9 := by
    rw [List.length_drop, Vector.length_toList]
    omega
  refine ⟨hlen, by rw [hc]; rfl, ?_⟩
  rw [hc, Reader.takeResult_of_open (by simp), candidate, ← shiftDown_eq_padded, ← hcnt]
  rfl

/-- A candidate that the rest of a valid frame fills up is read. -/
theorem readNext_rest {k : WireConstants} {f : Vector Byte 10} (hvalid : validFrame k f = true) {n : Nat} (h1 : 1 ≤ n)
    (h9 : n ≤ 9) (hlen : (f.toList.take n).length ≤ 9) (es : List RxEvent) :
    (candidate (f.toList.take n) hlen).readNext k (byteEvents (f.toList.drop n) ++ es) =
      some (⟨.reading, u16le f[2] f[3], u16le f[4] f[5]⟩, es, Reader.reset) := by
  obtain ⟨c, b, hc, -, hr, hw⟩ := readNext_window (k := k) (f.toList.take n) (f.toList.drop n) es
    (by simp; omega) (by simp; omega) (by simp; omega)
  rw [List.take_append_drop, padded_toList] at hw
  obtain ⟨hres, htake⟩ := complete_validFrame hw hvalid
  rw [hr, hres, htake]

/-- A window is the first ten of the bytes that it is made of. -/
theorem toList_padded {xs : List Byte} (h : 10 ≤ xs.length) : (padded xs).toList = xs.take 10 := by
  apply List.ext_getElem
  · simp [h]
  · intro i h1 h2
    rw [List.length_take] at h2
    simp [getElem_padded, List.getElem?_eq_getElem (show i < xs.length by omega)]

section FalseHead

variable {k : WireConstants} {junk : List Byte} {f : Vector Byte 10}

/-- The re-scan finds the head of the frame behind a false one: there is no other between (42_stream_reader.md R88). -/
theorem rescan_falseHead (hlen : junk.length ≤ 8) (hjunk : ∀ b ∈ junk, b ≠ k.head) (hhead : f[0] = k.head) :
    rescan k (padded (k.head :: junk ++ f.toList)) = some ⟨junk.length + 1, by omega⟩ := by
  refine rescan_of_firstHead (Nat.le_add_left ..) ?_ fun j hj hlt => ?_
  · exact (getElem_padded _ (junk.length + 1) (by omega)).trans (by simpa using hhead)
  · have hjl : j.val - 1 < junk.length := by
      have hlt := Fin.lt_def.1 hlt
      simp only at hlt
      omega
    have hbyte : (padded (k.head :: junk ++ f.toList))[j] = junk[j.val - 1] := by
      obtain ⟨n, hn⟩ : ∃ n, j.val = n + 1 := ⟨j.val - 1, by omega⟩
      have hn' : n < junk.length := by omega
      exact (getElem_padded _ j.val j.isLt).trans (by simp [hn, List.getElem?_append_left hn', hn'])
    exact hbyte ▸ hjunk _ (List.getElem_mem hjl)

/-- The byte behind the false head is the first of the junk and the frame. -/
theorem getElem_one_falseHead (hid : ∀ b, (junk ++ f.toList).head? = some b → b ≠ k.rspId) :
    (padded (k.head :: junk ++ f.toList))[1] ≠ k.rspId := by
  have hlt : 0 < (junk ++ f.toList).length := by simp
  refine (getElem_padded _ 1 (by omega)).symm ▸ hid _ ?_
  rw [List.head?_eq_getElem?]
  simp

/-- The frame is cut where the window of the false head ends. -/
theorem drop_falseHead (hlen : junk.length ≤ 8) (rest : List Byte) :
    (k.head :: junk ++ f.toList ++ rest).drop 10 = f.toList.drop (9 - junk.length) ++ rest := by
  have h : 10 - (junk.length + 1) = 9 - junk.length := by omega
  rw [List.append_assoc, List.drop_append, List.drop_eq_nil_of_le (by simp; omega), List.nil_append, List.length_cons, h,
    List.drop_append_of_le_length (by simp; omega)]

/-- What the re-scan keeps of the window is the beginning of the frame. -/
theorem keep_falseHead (hlen : junk.length ≤ 8) :
    (padded (k.head :: junk ++ f.toList)).toList.drop (junk.length + 1) = f.toList.take (9 - junk.length) := by
  have h : 10 - (junk.length + 1) = 9 - junk.length := by omega
  rw [toList_padded (by simp), List.take_append, List.take_of_length_le (by simp; omega), List.length_cons, h]
  exact List.drop_left

end FalseHead

/-- Settles O58: the re-scan keeps the window from the frame's head on, and the rest of the frame fills it up. -/
theorem falseHeadIsRecovered : Obligations.FalseHeadIsRecovered := by
  intro k junk rest f hlen hjunk hid hvalid
  have hhead := ((validFrame_iff k f).1 hvalid).1
  have hstream : k.head :: junk ++ f.toList ++ rest =
      (padded (k.head :: junk ++ f.toList)).toList ++ (k.head :: junk ++ f.toList ++ rest).drop 10 := by
    have hlength : 10 ≤ (k.head :: junk ++ f.toList).length := by simp
    rw [toList_padded hlength, ← List.take_append_of_le_length hlength (l₂ := rest), List.take_append_drop]
  obtain ⟨r, b, -, hw, hr⟩ := readNext_frame (padded (k.head :: junk ++ f.toList))
    ((getElem_padded _ 0 (by omega)).trans rfl) (byteEvents ((k.head :: junk ++ f.toList ++ rest).drop 10))
  obtain ⟨h9, hres, htake⟩ := complete_hit hw (getElem_one_falseHead hid) (rescan_falseHead hlen hjunk hhead)
  rw [hres, ← byteEvents_append, ← hstream] at hr
  refine ⟨(r.complete k b).takeResult, hr, ?_⟩
  simp only [htake, keep_falseHead hlen, drop_falseHead hlen, byteEvents_append]
  exact readNext_rest hvalid (by omega) (by omega) _ _

/-! ### Calls for ever (42_stream_reader.md R98; 70_reset_and_hazards.md R130) -/

/-- Settles O59: in CLOSED a terminal result waits, and taking it changes nothing. -/
theorem terminalResultIsReturnedForEver : Obligations.TerminalResultIsReturnedForEver := by
  intro n es r hwf hclosed
  obtain ⟨-, -, hI4, -, -, -, hfields, -⟩ := Reader.wf_iff.1 hwf
  obtain ⟨-, hposted, hkind⟩ := hI4 hclosed
  refine ⟨hkind, ?_⟩
  obtain ⟨hpm25, hpm10⟩ := hfields (by rcases hkind with h | h <;> simp [h])
  have hresult : r.result = ⟨r.resKind, 0, 0⟩ := by rw [Reader.result, hpm25, hpm10]
  have hnext := readNext_valid (k := wire) hposted es
  rw [hresult, Reader.takeResult_of_closed hclosed] at hnext
  induction n with
  | zero => rfl
  | succ n ih => exact readMany_succ hnext ih

/-- Settles O60: the frame cut at offset 4 begins with a head and a response id but its checksum is wrong, whole it is valid;
in both readings each call consumes ten bytes and leaves the reset state. -/
theorem standingDesynchronisation : Obligations.StandingDesynchronisation := by
  intro n rest g
  rw [byteEvents_append, byteEvents_append]
  constructor
  · refine readMany_repeat _ _ (fun es => ?_) n _
    exact readNext_wrongSum (w := #v[0xAA, 0xC0, 0x01, 0x02, 0x7D, 0xAB, 0xAA, 0xC0, 0x10, 0x00]) rfl rfl (by decide) es
  · refine readMany_repeat _ _ (fun es => ?_) n _
    exact readNext_validFrame (f := #v[0xAA, 0xC0, 0x10, 0x00, 0xAA, 0xC0, 0x01, 0x02, 0x7D, 0xAB]) (by decide) es

end Sys2Proof.Machine
